-- ==== Sys2Proof/Word.lean ====
section
/-! DEFINITION. The word types of the machine: one width, 32 bits (R2, R10), and bytes of memory (R26). -/

namespace Sys2Proof

/-- A Word: the contents of a register, the program counter, an address or an instruction
word (R10). Arithmetic on it wraps modulo 2^32, which is the spec's `+32` and `-32`. -/
abbrev Word := BitVec 32

/-- One byte of memory (R26). -/
abbrev Byte := BitVec 8

/-- The index of a general register, 0 to 31 (R14). Every index is legal in every register
field (R54). -/
abbrev RegIndex := Fin 32

end Sys2Proof
end

