-- ==== Sys2Proof/Config.lean ====
section
/-! DEFINITION. What is fixed for one machine and open in the spec (R8): the nine opcode and
function-code numbers, as a record the decoder and the encoder take as an argument.

The configured numbers are `Sys2Proof.opcodes` in Decode.lean. MEM_SIZE is a field of the
memory itself (R26), so that every statement holds for every size; the size and the image of
`State.reset` are in Machine/Platform.lean. No instruction has an undefined result, so the
model has no free value. STATUS_CODE is used by no rule (R95) and has no number here. -/

namespace Sys2Proof

/-- The opcode parameters of R8 (decision D7): six primary opcodes and three function codes.
The constraints on them are `OpcodeMap.WF` in WellFormed.lean. -/
structure OpcodeMap where
  /-- OP_ADDI -/
  opAddi : BitVec 6
  /-- OP_HALT -/
  opHalt : BitVec 6
  /-- OP_J -/
  opJ : BitVec 6
  /-- OP_BEQ -/
  opBeq : BitVec 6
  /-- OP_LW -/
  opLw : BitVec 6
  /-- OP_SW -/
  opSw : BitVec 6
  /-- FN_ADD -/
  fnAdd : BitVec 6
  /-- FN_SUB -/
  fnSub : BitVec 6
  /-- FN_SLT -/
  fnSlt : BitVec 6
  deriving DecidableEq, Repr

/-- OP_RTYPE, the primary opcode of the register format: fixed at 0 (R8, R55). -/
def opRtype : BitVec 6 := 0

/-- The largest memory size the spec admits, 2^32 bytes (R8, D3). -/
def memSizeMax : Nat := 2 ^ 32

end Sys2Proof
end

