-- ==== Sys2Proof/Syntax.lean ====
section
/-! DEFINITION. The nine instructions (R1, R55, R56): one constructor per row of the opcode table. -/

namespace Sys2Proof

/-- An instruction with the fields its handler uses (R69). The bits a handler does not read
are not part of the instruction (R51): `shamt` of the register format, bits 25:0 of `halt`.
Operands stand in the order of the notation of R59. -/
inductive Instr where
  /-- `add $rd,$rs,$rt` (R78) -/
  | add (rd rs rt : RegIndex)
  /-- `sub $rd,$rs,$rt` (R79) -/
  | sub (rd rs rt : RegIndex)
  /-- `slt $rd,$rs,$rt` (R80) -/
  | slt (rd rs rt : RegIndex)
  /-- `addi $rt,$rs,imm` (R81) -/
  | addi (rt rs : RegIndex) (imm : BitVec 16)
  /-- `lw $rt,imm($rs)` (R83) -/
  | lw (rt rs : RegIndex) (imm : BitVec 16)
  /-- `sw $rt,imm($rs)` (R84) -/
  | sw (rt rs : RegIndex) (imm : BitVec 16)
  /-- `beq $rs,$rt,off`, with the raw immediate field (R86) -/
  | beq (rs rt : RegIndex) (imm : BitVec 16)
  /-- `j addr`, with the raw 26-bit field (R87) -/
  | j (addr : BitVec 26)
  /-- `halt` (R88) -/
  | halt
  deriving DecidableEq, Repr

end Sys2Proof
end

