-- ==== Sys2Proof/WellFormed.lean ====
section
/-! DEFINITION. The checks: opcode parameters (R8), a launch (R106, R109), and a line of
assembly in the notation of R59, whose operands are plain numbers.

An `Instr` needs no check of its own: its fields are exactly as wide as the encoding's, and
every value of every field is legal (R51, R54). -/

namespace Sys2Proof

/-- The six primary opcodes of a parameter record. -/
def OpcodeMap.primaries (p : OpcodeMap) : List (BitVec 6) :=
  [p.opAddi, p.opHalt, p.opJ, p.opBeq, p.opLw, p.opSw]

/-- The three function codes of a parameter record. -/
def OpcodeMap.functs (p : OpcodeMap) : List (BitVec 6) :=
  [p.fnAdd, p.fnSub, p.fnSlt]

/-- The constraints of R8: six pairwise different primary opcodes, none of them OP_RTYPE, and
three pairwise different function codes. -/
abbrev OpcodeMap.WF (p : OpcodeMap) : Prop :=
  p.primaries.Nodup ∧ opRtype ∉ p.primaries ∧ p.functs.Nodup

/-- A legal memory size: from 1 to 2^32 bytes (R8, R106). -/
abbrev MemSizeLegal (n : Nat) : Prop := 1 ≤ n ∧ n ≤ memSizeMax

/-- An image fits the memory (R109). -/
abbrev ImageFits (image : List Byte) (n : Nat) : Prop := image.length ≤ n

/-- A line of assembly as it is written: register numbers and signed decimals (R59). There is
no pseudo-instruction (R60). -/
inductive Asm where
  | add (rd rs rt : Nat)
  | sub (rd rs rt : Nat)
  | slt (rd rs rt : Nat)
  | addi (rt rs : Nat) (imm : Int)
  | lw (rt : Nat) (imm : Int) (rs : Nat)
  | sw (rt : Nat) (imm : Int) (rs : Nat)
  | beq (rs rt : Nat) (off : Int)
  | j (addr : Nat)
  | halt
  deriving DecidableEq, Repr

/-- A register is written `$n` with `n` its index, 0 to 31 (R59, R14). -/
abbrev RegNumber (n : Nat) : Prop := n < 32

/-- A signed decimal immediate or word offset lies in -32768 .. 32767 (R59). -/
abbrev Signed16 (i : Int) : Prop := -32768 ≤ i ∧ i ≤ 32767

/-- A jump operand is the 26-bit field value (R59). -/
abbrev Jump26 (a : Nat) : Prop := a < 2 ^ 26

/-- The operands of a line are in the ranges of R59. -/
def Asm.wf : Asm → Bool
  | .add rd rs rt => RegNumber rd && RegNumber rs && RegNumber rt
  | .sub rd rs rt => RegNumber rd && RegNumber rs && RegNumber rt
  | .slt rd rs rt => RegNumber rd && RegNumber rs && RegNumber rt
  | .addi rt rs imm => RegNumber rt && RegNumber rs && Signed16 imm
  | .lw rt imm rs => RegNumber rt && Signed16 imm && RegNumber rs
  | .sw rt imm rs => RegNumber rt && Signed16 imm && RegNumber rs
  | .beq rs rt off => RegNumber rs && RegNumber rt && Signed16 off
  | .j addr => Jump26 addr
  | .halt => true

end Sys2Proof
end

