-- ==== Sys2Proof/Decode.lean ====
section
/-! DEFINITION. Byte order, field extraction, the two dispatch tables, the decoder and the encoder. -/

namespace Sys2Proof

/-- The configured opcode and function-code numbers: the spec's defaults (R8, R55, R56).
DESIGN CHOICE of the spec (D7): 0x08 and 0x0F are derived from the source's one example, the other
seven are PRESUMED, the spec's own general knowledge (GK1). Log 4 and log 5. -/
def opcodes : OpcodeMap where
  opAddi := 0x08
  opHalt := 0x0F
  opJ := 0x02
  opBeq := 0x04
  opLw := 0x23
  opSw := 0x2B
  fnAdd := 0x20
  fnSub := 0x22
  fnSlt := 0x2A

/-! ### Byte order -/

/-- The Word of four bytes in rising address order, most significant first (R31, R32, R34). -/
def wordOfBytes (b0 b1 b2 b3 : Byte) : Word :=
  b0 ++ b1 ++ b2 ++ b3

/-- The four bytes of a Word in rising address order: `v[31:24]`, `v[23:16]`, `v[15:8]`, `v[7:0]` (R35). -/
def bytesOfWord (v : Word) : List Byte :=
  [v.extractLsb' 24 8, v.extractLsb' 16 8, v.extractLsb' 8 8, v.extractLsb' 0 8]

/-! ### Fields -/

/-- The eight fields of an instruction word (R48). -/
structure Fields where
  opcode : BitVec 6
  rs : BitVec 5
  rt : BitVec 5
  rd : BitVec 5
  shamt : BitVec 5
  funct : BitVec 6
  imm : BitVec 16
  addr : BitVec 26
  deriving DecidableEq, Repr

/-- The field extractor: every field of every word, whatever its format (R48, R50, R65). -/
def extractFields (w : Word) : Fields where
  opcode := w.extractLsb' 26 6
  rs := w.extractLsb' 21 5
  rt := w.extractLsb' 16 5
  rd := w.extractLsb' 11 5
  shamt := w.extractLsb' 6 5
  funct := w.extractLsb' 0 6
  imm := w.extractLsb' 0 16
  addr := w.extractLsb' 0 26

/-- The register a 5-bit field names (R54). -/
def regOfField (f : BitVec 5) : RegIndex := ⟨f.toNat, f.isLt⟩

/-- The 5-bit field that names a register. -/
def fieldOfReg (r : RegIndex) : BitVec 5 := BitVec.ofNat 5 r.val

/-! ### The dispatch tables (R27, R70): constants of the machine, not state -/

/-- The handlers of the primary table (R55). -/
inductive PrimaryHandler where
  | j
  | beq
  | addi
  | halt
  | lw
  | sw
  deriving DecidableEq, Repr

/-- The handlers of the secondary table (R56). -/
inductive SecondaryHandler where
  | add
  | sub
  | slt
  deriving DecidableEq, Repr

/-- The primary table: 64 slots indexed by the opcode (R55, R70). Slot 0 is the route to the
secondary table and is not looked up here (R67). -/
def primaryTable (p : OpcodeMap) (opcode : BitVec 6) : Option PrimaryHandler :=
  if opcode = p.opJ then some .j
  else if opcode = p.opBeq then some .beq
  else if opcode = p.opAddi then some .addi
  else if opcode = p.opHalt then some .halt
  else if opcode = p.opLw then some .lw
  else if opcode = p.opSw then some .sw
  else none

/-- The secondary table: 64 slots indexed by the function code (R56, R70). -/
def secondaryTable (p : OpcodeMap) (funct : BitVec 6) : Option SecondaryHandler :=
  if funct = p.fnAdd then some .add
  else if funct = p.fnSub then some .sub
  else if funct = p.fnSlt then some .slt
  else none

/-- Why bytes are not an instruction: a dispatch miss in one of the two tables (R57, R68), or
fewer than four bytes. -/
inductive Reject where
  /-- the primary slot of this opcode is unpopulated -/
  | unregisteredOpcode (opcode : BitVec 6)
  /-- the secondary slot of this function code is unpopulated -/
  | unregisteredFunct (funct : BitVec 6)
  /-- the bytes end before the fourth -/
  | truncated
  deriving DecidableEq, Repr

/-- The instruction a primary handler makes of the fields it uses (R69). -/
def primaryInstr (f : Fields) : PrimaryHandler → Instr
  | .j => .j f.addr
  | .beq => .beq (regOfField f.rs) (regOfField f.rt) f.imm
  | .addi => .addi (regOfField f.rt) (regOfField f.rs) f.imm
  | .halt => .halt
  | .lw => .lw (regOfField f.rt) (regOfField f.rs) f.imm
  | .sw => .sw (regOfField f.rt) (regOfField f.rs) f.imm

/-- The instruction a secondary handler makes of the fields it uses (R69). -/
def secondaryInstr (f : Fields) : SecondaryHandler → Instr
  | .add => .add (regOfField f.rd) (regOfField f.rs) (regOfField f.rt)
  | .sub => .sub (regOfField f.rd) (regOfField f.rs) (regOfField f.rt)
  | .slt => .slt (regOfField f.rd) (regOfField f.rs) (regOfField f.rt)

/-- Two-level routing: opcode 0 through the secondary table by the function code, every other
opcode through the primary table alone (R66, R67, R68). -/
def route (p : OpcodeMap) (f : Fields) : Except Reject Instr :=
  if f.opcode = opRtype then
    match secondaryTable p f.funct with
    | some h => .ok (secondaryInstr f h)
    | none => .error (.unregisteredFunct f.funct)
  else
    match primaryTable p f.opcode with
    | some h => .ok (primaryInstr f h)
    | none => .error (.unregisteredOpcode f.opcode)

/-! ### The decoder -/

/-- Decode and route one word under given opcode numbers (R65 to R68). -/
def decodeWordWith (p : OpcodeMap) (w : Word) : Except Reject Instr :=
  route p (extractFields w)

/-- Decode and route one word of the configured machine. -/
def decodeWord (w : Word) : Except Reject Instr := decodeWordWith opcodes w

/-- Read one instruction from the front of a byte string and give the rest back: one length
only, four bytes, most significant first (R32, R47). -/
def decodeBytes (p : OpcodeMap) : List Byte → Except Reject (Instr × List Byte)
  | b0 :: b1 :: b2 :: b3 :: rest =>
    match decodeWordWith p (wordOfBytes b0 b1 b2 b3) with
    | .ok i => .ok (i, rest)
    | .error e => .error e
  | _ => .error .truncated

/-! ### The encoder -/

/-- A register-format word (R49), `shamt` 0 as the notation of R59 sets it. -/
def rFormat (rs rt rd : RegIndex) (funct : BitVec 6) : Word :=
  opRtype ++ fieldOfReg rs ++ fieldOfReg rt ++ fieldOfReg rd ++ (0 : BitVec 5) ++ funct

/-- An immediate-format word (R49). -/
def iFormat (opcode : BitVec 6) (rs rt : RegIndex) (imm : BitVec 16) : Word :=
  opcode ++ fieldOfReg rs ++ fieldOfReg rt ++ imm

/-- A jump-format word (R49). -/
def jFormat (opcode : BitVec 6) (addr : BitVec 26) : Word :=
  opcode ++ addr

/-- The word of an instruction under given opcode numbers, ignored bits 0 (R55, R56, R59). -/
def encodeWith (p : OpcodeMap) : Instr → Word
  | .add rd rs rt => rFormat rs rt rd p.fnAdd
  | .sub rd rs rt => rFormat rs rt rd p.fnSub
  | .slt rd rs rt => rFormat rs rt rd p.fnSlt
  | .addi rt rs imm => iFormat p.opAddi rs rt imm
  | .lw rt rs imm => iFormat p.opLw rs rt imm
  | .sw rt rs imm => iFormat p.opSw rs rt imm
  | .beq rs rt imm => iFormat p.opBeq rs rt imm
  | .j addr => jFormat p.opJ addr
  | .halt => jFormat p.opHalt 0

/-- The word of an instruction of the configured machine. -/
def encode (i : Instr) : Word := encodeWith opcodes i

/-- The bytes of an instruction as they lie in memory (R47). -/
def encodeBytes (p : OpcodeMap) (i : Instr) : List Byte := bytesOfWord (encodeWith p i)

/-! ### The host's reading of an opcode-table word -/

/-- The word whose bits are the low `nbits` bits of `w`, numbered as the opcode table numbers them. -/
def tableWord (nbits w : Nat) : Word := BitVec.ofNat 32 (w % 2 ^ nbits)

/-- The instruction the decoder reads from a table word laid out in memory order. -/
def decodeTableWord (nbits w : Nat) : Option Instr :=
  match decodeBytes opcodes (bytesOfWord (tableWord nbits w)) with
  | .ok (i, _) => some i
  | .error _ => none

end Sys2Proof
end

