-- ==== Sys2Proof/Machine/Platform.lean ====
section
/-! DEFINITION. The platform values of `State.reset`: the memory size of the open parameter
MEM_SIZE (R8, D3). -/

namespace Sys2Proof.Machine

/-- The memory size of `State.reset`. DESIGN CHOICE: the spec leaves MEM_SIZE open between 1 and
2^32 (R8); this is the whole address space. `launch` takes any legal size. Log 2. -/
def resetMemSize : Nat := memSizeMax

end Sys2Proof.Machine
end

