-- ==== Sys2Proof/Machine/State.lean ====
section
/-! DEFINITION. The state of the machine: exactly the four things of R13, as plain data. -/

namespace Sys2Proof.Machine

/-- The execution status: the closed set of outcomes of R23, with no numbers (R95). -/
inductive Status where
  /-- the instruction retired (R94) -/
  | success
  /-- `halt` retired; turned into `Stopped(success)` at the end of the Step (R72) -/
  | haltRequested
  /-- dispatch miss (R90) -/
  | invalidOpcode
  /-- fetch or data access outside the memory (R91, R92) -/
  | memoryOutOfBounds
  /-- in the enumeration for the host's use; never the outcome of a Step (R93) -/
  | allocationFailure
  deriving DecidableEq, Repr

/-- The run state (R22). Which statuses a stop can carry is `RunState.Legal` in Safety.lean. -/
inductive RunState where
  | running
  | stopped (s : Status)
  deriving DecidableEq, Repr

/-- Memory: a byte buffer of fixed size with addresses 0 to `size - 1` (R26, R30). `cells`
lists the bytes that are not 0 in strictly rising address order; an unlisted byte reads 0,
which is what initialisation leaves (R29). `Memory.wf` in Ops.lean states the form. -/
structure Memory where
  size : Nat
  cells : List Host.Cell
  deriving DecidableEq, Repr

/-- The architectural state (R13): registers, program counter, run state, memory. -/
structure State where
  /-- `x[0]` .. `x[31]` (R14); read and written through `State.reg` and `State.writeReg` -/
  regs : Vector Word 32
  /-- the program counter (R19) -/
  pc : Word
  /-- Running or Stopped (R22) -/
  run : RunState
  /-- the one memory of program and data (R26) -/
  mem : Memory
  deriving DecidableEq, Repr

/-- Why a step gives no next state. -/
inductive Fault where
  /-- Raised by the Step alone, when the machine has already stopped: no Step is enabled in
  `Stopped(s)` (R74, U10). Safe: nothing is claimed past a stop. The errors of the spec
  themselves are next states whose run state is `Stopped(s)` (R72, R100). -/
  | stopped (s : Status)
  deriving DecidableEq, Repr

/-- Why something is refused. -/
inductive Refusal where
  /-- An instruction without a meaning. No instruction of this model is refused. Safe. -/
  | notModelled (mnemonic : String)
  /-- Raised by the host's initialisation for a memory size of 0 or above 2^32 (R106, D3). Safe. -/
  | memorySizeIllegal
  /-- Raised by the host's image load for an image longer than the memory (R109, U8). Safe. -/
  | imageTooLong
  deriving DecidableEq, Repr

/-- Memory right after initialisation: every byte 0 (R29, R105). -/
def Memory.zeroed (size : Nat) : Memory := { size := size, cells := [] }

/-- The state right after initialisation, before an image is loaded: all registers 0, program
counter 0, Running, memory zero (R29, R105). -/
def State.initial (size : Nat) : State where
  regs := Vector.replicate 32 0
  pc := 0
  run := .running
  mem := Memory.zeroed size

/-- The machine right after reset (R29), with the platform's memory size and the empty image
(R109: an empty image is legal). Log 2 and log 3. -/
def State.reset : State := State.initial resetMemSize

end Sys2Proof.Machine
end

