-- ==== Sys2Proof/Machine/Ops.lean ====
section
/-! DEFINITION. The shared operations over registers, program counter, memory and run state,
with the stop that every error of the spec ends in. -/

namespace Sys2Proof.Machine

/-! ### Registers -/

/-- `x[i]`: register 0 reads 0 in every state (R16). -/
def State.reg (s : State) (i : RegIndex) : Word :=
  if i = 0 then 0 else s.regs[i]

/-- `x[i] <- v`: a write to register 0 does nothing (R16). -/
def State.writeReg (s : State) (i : RegIndex) (v : Word) : State :=
  { s with regs := if i = 0 then s.regs else s.regs.set i.val v i.isLt }

/-! ### Program counter -/

/-- `pc <- t` (R12). -/
def State.setPc (s : State) (t : Word) : State := { s with pc := t }

/-- The advance of part (c) of the Step: modulo 2^32 (R24, R64). -/
def State.advancePc (s : State) : State := s.setPc (s.pc + 4)

/-! ### Memory -/

/-- The byte an address-sorted list gives an address: 0 where it lists none. -/
def cellsRead : List Host.Cell → Nat → Byte
  | [], _ => 0
  | (k, b) :: rest, a => if a < k then 0 else if a = k then b else cellsRead rest a

/-- The list after a byte write; a byte that becomes 0 leaves the list. -/
def cellsWrite : List Host.Cell → Nat → Byte → List Host.Cell
  | [], a, v => if v = 0 then [] else [(a, v)]
  | (k, b) :: rest, a, v =>
    if a < k then (if v = 0 then (k, b) :: rest else (a, v) :: (k, b) :: rest)
    else if a = k then (if v = 0 then rest else (a, v) :: rest)
    else (k, b) :: cellsWrite rest a v

/-- The canonical form: a legal size, addresses strictly rising and below the size, no byte
listed that is 0. -/
abbrev Memory.wf (m : Memory) : Prop :=
  MemSizeLegal m.size ∧ m.cells.Pairwise (fun c d => c.1 < d.1) ∧
    ∀ c ∈ m.cells, c.2 ≠ 0 ∧ c.1 < m.size

/-- `mem[a]` (R26). -/
def Memory.byte (m : Memory) (a : Nat) : Byte := cellsRead m.cells a

/-- `mem[a] <- v`. -/
def Memory.setByte (m : Memory) (a : Nat) (v : Byte) : Memory :=
  { m with cells := cellsWrite m.cells a v }

/-- Consecutive bytes from an address up. -/
def Memory.setBytes (m : Memory) (a : Nat) : List Byte → Memory
  | [] => m
  | v :: vs => (m.setByte a v).setBytes (a + 1) vs

/-- `InBounds(a)`: `a + 3 < MEM_SIZE` over the unbounded integers, so that the sum never wraps
(R33, D4). -/
abbrev Memory.InBounds (m : Memory) (a : Word) : Prop := a.toNat + 3 < m.size

/-- The four bytes at an address assembled big-endian (R34). -/
def Memory.wordAt (m : Memory) (a : Nat) : Word :=
  wordOfBytes (m.byte a) (m.byte (a + 1)) (m.byte (a + 2)) (m.byte (a + 3))

/-- A checked read, `MemRead(a, 4)`: nothing where the address is out of bounds (R34, R36). -/
def Memory.load (m : Memory) (a : Word) : Option Word :=
  if m.InBounds a then some (m.wordAt a.toNat) else none

/-- A checked write, `MemWrite(a, 4, v)`: all four bytes, most significant first, or nothing
(R35, R36). -/
def Memory.store (m : Memory) (a : Word) (v : Word) : Option Memory :=
  if m.InBounds a then some (m.setBytes a.toNat (bytesOfWord v)) else none

/-! ### Status and stop -/

/-- The run state a status leaves (R61 Finish, R72): `success` leaves it as it is (Running),
`halt-requested` stops with `success`, an error stops with itself. -/
def Status.runState (r : RunState) : Status → RunState
  | .success => r
  | .haltRequested => .stopped .success
  | .invalidOpcode => .stopped .invalidOpcode
  | .memoryOutOfBounds => .stopped .memoryOutOfBounds
  | .allocationFailure => .stopped .allocationFailure

/-- The end of a Step: the status decides the run state and nothing else changes (R72). -/
def State.finish (s : State) (st : Status) : State := { s with run := st.runState s.run }

/-- `return success` and `return halt-requested` (R12). -/
def retire (s : State) (st : Status) : Host.Outcome State Fault Refusal := .next (s.finish st)

/-- `raise <Status>` (R12, R100): the machine's whole exception mechanism. The Step ends with
the status, the run state becomes `Stopped(status)`, what the Step did before (the counter
advance of R64) stays, nothing is saved (R97) and no handler is entered. There is no return
from it (R101): only `launch` leaves `Stopped`. -/
def raise (s : State) (st : Status) : Host.Outcome State Fault Refusal := .next (s.finish st)

/-! ### Placing an instruction for the host -/

/-- The state with a word stored where the next fetch reads: Running, as a fetch needs; where
the program counter is out of bounds, also the counter at 0 and a memory of at least four
bytes (log 19). -/
def State.placeWord (s : State) (w : Word) : State :=
  if s.mem.InBounds s.pc then
    { s with run := .running, mem := s.mem.setBytes s.pc.toNat (bytesOfWord w) }
  else
    { s with
      run := .running
      pc := 0
      mem := { s.mem with size := max s.mem.size 4 }.setBytes 0 (bytesOfWord w) }

end Sys2Proof.Machine
end

