-- ==== Sys2Proof/Machine/Flags.lean ====
section
/-! DEFINITION. The machine has no flags (R28): a comparison gives its answer at once. These are
the two comparisons of the set. -/

namespace Sys2Proof.Machine

/-- The result of `slt`: 1 or 0 by the exact signed comparison, not by a wrapped subtraction (R80). -/
def sltResult (a b : Word) : Word := if a.toInt < b.toInt then 1 else 0

/-- The condition of `beq`: equality of the two Words (R86). -/
abbrev BranchTaken (a b : Word) : Prop := a = b

end Sys2Proof.Machine
end

