-- ==== Sys2Proof/Machine/Operands.lean ====
section
/-! DEFINITION. The operand forms: the sign-extended immediate, the one addressing mode, the
branch displacement and the jump target. -/

namespace Sys2Proof.Machine

/-- `sext_32(v)`: the 16-bit value widened by its sign bit (R11, R52). -/
def sext32 (imm : BitVec 16) : Word := imm.signExtend 32

/-- The effective address of `lw` and `sw`: base plus sign-extended displacement, modulo 2^32
(R82, D5). -/
def State.effectiveAddress (s : State) (rs : RegIndex) (imm : BitVec 16) : Word :=
  s.reg rs + sext32 imm

/-- The branch displacement: the sign-extended immediate shifted left by two (R53). -/
def branchDisplacement (imm : BitVec 16) : Word := sext32 imm <<< 2

/-- The target of a taken `beq`, from the advanced counter, modulo 2^32 (R53, R85, R86). -/
def branchTarget (pcNext : Word) (imm : BitVec 16) : Word := pcNext + branchDisplacement imm

/-- The target of `j`: the top four bits of the advanced counter, the field times four (R54, R87). -/
def jumpTarget (pcNext : Word) (addr : BitVec 26) : Word :=
  (pcNext &&& 0xF0000000#32) ||| (addr.setWidth 32 <<< 2)

end Sys2Proof.Machine
end

