-- ==== Sys2Proof/Machine/Arithmetic.lean ====
section
/-! DEFINITION. `add`, `sub`, `slt`, `addi` (R77 to R81): they always succeed, wrap modulo 2^32
and discard a write to register 0. On entry the program counter is already advanced (R64). -/

namespace Sys2Proof.Machine

/-- `add` (R78). -/
def execAdd (rd rs rt : RegIndex) (s : State) : Host.Outcome State Fault Refusal :=
  retire (s.writeReg rd (s.reg rs + s.reg rt)) .success

/-- `sub` (R79): `rs` minus `rt`. -/
def execSub (rd rs rt : RegIndex) (s : State) : Host.Outcome State Fault Refusal :=
  retire (s.writeReg rd (s.reg rs - s.reg rt)) .success

/-- `slt` (R80). -/
def execSlt (rd rs rt : RegIndex) (s : State) : Host.Outcome State Fault Refusal :=
  retire (s.writeReg rd (sltResult (s.reg rs) (s.reg rt))) .success

/-- `addi` (R81): the destination is `rt`. -/
def execAddi (rt rs : RegIndex) (imm : BitVec 16) (s : State) : Host.Outcome State Fault Refusal :=
  retire (s.writeReg rt (s.reg rs + sext32 imm)) .success

end Sys2Proof.Machine
end

