-- ==== Sys2Proof/Machine/Control.lean ====
section
/-! DEFINITION. `beq`, `j` (R85 to R87) and `halt` (R88). On entry the program counter is
`pc_next`; there is no delay slot and no check of the target, which the next fetch makes. -/

namespace Sys2Proof.Machine

/-- `beq` (R86). -/
def execBeq (rs rt : RegIndex) (imm : BitVec 16) (s : State) : Host.Outcome State Fault Refusal :=
  if BranchTaken (s.reg rs) (s.reg rt) then retire (s.setPc (branchTarget s.pc imm)) .success
  else retire s .success

/-- `j` (R87). -/
def execJ (addr : BitVec 26) (s : State) : Host.Outcome State Fault Refusal :=
  retire (s.setPc (jumpTarget s.pc addr)) .success

/-- `halt` (R88): the handler changes nothing; the status stops the machine with `success`. -/
def execHalt (s : State) : Host.Outcome State Fault Refusal :=
  retire s .haltRequested

end Sys2Proof.Machine
end

