-- ==== Sys2Proof/Machine/LoadStore.lean ====
section
/-! DEFINITION. `lw` and `sw` (R82 to R84): bounds-checked, big-endian, with no alignment
requirement (R37). -/

namespace Sys2Proof.Machine

/-- `lw` (R83): the bounds check comes first and also when the destination is register 0 (C5). -/
def execLw (rt rs : RegIndex) (imm : BitVec 16) (s : State) : Host.Outcome State Fault Refusal :=
  match s.mem.load (s.effectiveAddress rs imm) with
  | some v => retire (s.writeReg rt v) .success
  | none => raise s .memoryOutOfBounds

/-- `sw` (R84): all four bytes or none. -/
def execSw (rt rs : RegIndex) (imm : BitVec 16) (s : State) : Host.Outcome State Fault Refusal :=
  match s.mem.store (s.effectiveAddress rs imm) (s.reg rt) with
  | some m => retire { s with mem := m } .success
  | none => raise s .memoryOutOfBounds

end Sys2Proof.Machine
end

