-- ==== Sys2Proof/Machine/Dispatch.lean ====
section
/-! DEFINITION. The execute part of a Step (R69): one arm per instruction. -/

namespace Sys2Proof.Machine

/-- The handler of each instruction, called with the program counter already advanced, and the
end of the Step (R69, R72). It is the Step, not the handler, that asks for `Running` (R61). -/
def exec (i : Instr) (s : State) : Host.Outcome State Fault Refusal :=
  match i with
  | .add rd rs rt => Sys2Proof.Machine.execAdd rd rs rt s
  | .sub rd rs rt => Sys2Proof.Machine.execSub rd rs rt s
  | .slt rd rs rt => Sys2Proof.Machine.execSlt rd rs rt s
  | .addi rt rs imm => Sys2Proof.Machine.execAddi rt rs imm s
  | .lw rt rs imm => Sys2Proof.Machine.execLw rt rs imm s
  | .sw rt rs imm => Sys2Proof.Machine.execSw rt rs imm s
  | .beq rs rt imm => Sys2Proof.Machine.execBeq rs rt imm s
  | .j addr => Sys2Proof.Machine.execJ addr s
  | .halt => Sys2Proof.Machine.execHalt s

end Sys2Proof.Machine
end

