-- ==== Sys2Proof/Machine/Cycle.lean ====
section
/-! DEFINITION. One Step (R61): fetch bounds check, fetch, counter advance, decode, route,
execute, under given opcode numbers. -/

namespace Sys2Proof.Machine

/-- Parts (a) and (b): the big-endian word at the program counter, nothing where it is out of
bounds. There is no alignment check (R38, R62, R63). -/
def State.fetch (s : State) : Option Word := s.mem.load s.pc

/-- Parts (d) to (f): decode and route a fetched word and run its handler; the counter is
already advanced. A dispatch miss raises `invalid-opcode` and changes nothing more (R65 to R69). -/
def executeWord (p : OpcodeMap) (w : Word) (s : State) : Host.Outcome State Fault Refusal :=
  match decodeWordWith p w with
  | .ok i => exec i s
  | .error _ => raise s .invalidOpcode

/-- The Step (R61). It is enabled only in `Running`; a stopped machine takes none (R74). -/
def stepWith (p : OpcodeMap) (s : State) : Host.Outcome State Fault Refusal :=
  match s.run with
  | .stopped st => .fault (.stopped st)
  | .running =>
    match s.fetch with
    | none => raise s .memoryOutOfBounds
    | some w => executeWord p w s.advancePc

end Sys2Proof.Machine
end

