-- ==== Sys2Proof/Machine/Step.lean ====
section
/-! DEFINITION. The Step of the configured machine, and the host's way to place an instruction. -/

namespace Sys2Proof.Machine

/-- One Step (R61) under the configured opcode numbers. -/
def step (s : State) : Host.Outcome State Fault Refusal := stepWith opcodes s

/-- `s` with a table word stored where `step` fetches its next instruction. -/
def State.withFetchWord (s : State) (nbits w : Nat) : State := s.placeWord (tableWord nbits w)

end Sys2Proof.Machine
end

