-- ==== Sys2Proof/Machine/Assembly.lean ====
section
/-! DEFINITION. The assembly notation of R59 as a translation into instructions. -/

namespace Sys2Proof.Machine

/-- The register index a line writes as `$n`. -/
def asmReg (n : Nat) : RegIndex := Fin.ofNat 32 n

/-- The immediate field of a signed decimal: its value modulo 2^16 (R59). -/
def asmImm (i : Int) : BitVec 16 := BitVec.ofInt 16 i

/-- The fields each line sets (R59). -/
def asmInstr : Asm → Instr
  | .add rd rs rt => .add (asmReg rd) (asmReg rs) (asmReg rt)
  | .sub rd rs rt => .sub (asmReg rd) (asmReg rs) (asmReg rt)
  | .slt rd rs rt => .slt (asmReg rd) (asmReg rs) (asmReg rt)
  | .addi rt rs imm => .addi (asmReg rt) (asmReg rs) (asmImm imm)
  | .lw rt imm rs => .lw (asmReg rt) (asmReg rs) (asmImm imm)
  | .sw rt imm rs => .sw (asmReg rt) (asmReg rs) (asmImm imm)
  | .beq rs rt off => .beq (asmReg rs) (asmReg rt) (asmImm off)
  | .j addr => .j (BitVec.ofNat 26 addr)
  | .halt => .halt

/-- The instruction of a line whose operands are in range, nothing for any other line. -/
def assemble (l : Asm) : Option Instr := if l.wf then some (asmInstr l) else none

end Sys2Proof.Machine
end

