-- ==== Sys2Proof/Machine/Engine.lean ====
section
/-! DEFINITION. The host's dealings with the machine (R111): initialise, load, run, observe. -/

namespace Sys2Proof.Machine

/-- Engine initialisation: a memory of the requested size, all zero, and the initial state. A
size of 0 or above 2^32 is refused (R105, R106, R107). -/
def initialise (memSize : Nat) : Host.Outcome State Fault Refusal :=
  if MemSizeLegal memSize then .next (State.initial memSize) else .refused .memorySizeIllegal

/-- Loading: byte `i` of the image becomes `mem[i]`, as it is. An image longer than the memory
is refused (R109). -/
def loadImage (image : List Byte) (s : State) : Host.Outcome State Fault Refusal :=
  if ImageFits image s.mem.size then .next { s with mem := s.mem.setBytes 0 image }
  else .refused .imageTooLong

/-- Reset with a program: initialise, then load (R104). It takes nothing from an earlier state,
so it may follow any. -/
def launch (memSize : Nat) (image : List Byte) : Host.Outcome State Fault Refusal :=
  match initialise memSize with
  | .next s => loadImage image s
  | .fault f => .fault f
  | .refused r => .refused r

/-- The run loop for at most `n` Steps: repeated Steps until none is enabled (R73). The number
bounds the executor, not the machine (R75). -/
def runFor : Nat → State → State
  | 0, s => s
  | n + 1, s =>
    match step s with
    | .next t => runFor n t
    | .fault _ => s
    | .refused _ => s

/-- The result of a run that has stopped (R73). -/
def State.result (s : State) : Option Status :=
  match s.run with
  | .running => none
  | .stopped st => some st

/-- What the host reads after the stop (R76, R111). -/
structure Observation where
  status : Status
  pc : Word
  regs : List Word
  mem : Memory
  deriving DecidableEq, Repr

/-- Observation: a pure read, and only of a machine that has stopped (R111). -/
def State.observe (s : State) : Option Observation :=
  s.result.map fun st =>
    { status := st, pc := s.pc, regs := (List.finRange 32).map s.reg, mem := s.mem }

end Sys2Proof.Machine
end

