-- ==== Sys2Proof/Safety.lean ====
section
/-! DEFINITION. What counts as a well-formed state and a clean end, in the terms the statements use. -/

namespace Sys2Proof.Machine

/-- The run states of R22: a stop carries `success`, `invalid-opcode` or `memory-out-of-bounds`,
never `halt-requested` (R73) and never `allocation-failure` (R93). -/
abbrev RunState.Legal : RunState → Prop
  | .running => True
  | .stopped s => s = .success ∨ s = .invalidOpcode ∨ s = .memoryOutOfBounds

/-- The invariant of the machine. -/
structure State.Inv (s : State) : Prop where
  /-- memory keeps its canonical form and a legal size (R26) -/
  mem_wf : s.mem.wf
  /-- the program counter is a multiple of 4 (R21) -/
  pc_aligned : s.pc.toNat % 4 = 0
  /-- the run state is one of R22 -/
  run_legal : s.run.Legal
  /-- the cell of register 0 is never written (R16) -/
  zero_cell : s.regs[0] = 0

/-- A machine that has stopped with an error (R89, R94). -/
abbrev RunState.Failed (r : RunState) : Prop :=
  r = .stopped .invalidOpcode ∨ r = .stopped .memoryOutOfBounds

/-- The states a machine launched with a legal size and a fitting image comes to (R73). -/
inductive Reachable (size : Nat) (image : List Byte) : State → Prop where
  | start {s : State} : launch size image = .next s → Reachable size image s
  | step {s t : State} : Reachable size image s → step s = .next t → Reachable size image t

end Sys2Proof.Machine
end

