-- ==== Sys2Proof/Certificates/Slice0/Obligations.lean ====
section
/-! DEFINITION. The statements for the provers, and the spec's own formulas they are written in. -/

namespace Sys2Proof.Claims

open Sys2Proof.Machine

/-! ### The spec's notation, over plain numbers -/

/-- `w[hi:lo]` as R9 defines it. -/
def bits (w : Word) (hi lo : Nat) : Nat := w.toNat / 2 ^ lo % 2 ^ (hi - lo + 1)

/-- `signed(v)` as R10 defines it. -/
def signed (v : Word) : Int := if v.toNat < 2 ^ 31 then v.toNat else (v.toNat : Int) - 2 ^ 32

/-- The signed value of a 16-bit field (R52). -/
def signed16 (v : BitVec 16) : Int := if v.toNat < 2 ^ 15 then v.toNat else (v.toNat : Int) - 2 ^ 16

/-- `sext_32(v)` as R11 defines it. -/
def sextNat (v : BitVec 16) : Nat := if v.toNat < 0x8000 then v.toNat else v.toNat + 0xFFFF0000

/-- `{mem[a], mem[a+1], mem[a+2], mem[a+3]}` as R34 defines it. -/
def bigEndian (m : Memory) (a : Nat) : Nat :=
  (m.byte a).toNat * 2 ^ 24 + (m.byte (a + 1)).toNat * 2 ^ 16 + (m.byte (a + 2)).toNat * 2 ^ 8 +
    (m.byte (a + 3)).toNat

/-- The effective address of R82 over plain numbers. -/
def eaNat (s : State) (rs : RegIndex) (imm : BitVec 16) : Nat :=
  ((s.reg rs).toNat + sextNat imm) % 2 ^ 32

/-! ### What a state keeps -/

/-- Every byte of memory reads as before, and the size is the same. -/
def SameMemory (s t : State) : Prop := t.mem.size = s.mem.size ∧ ∀ a, t.mem.byte a = s.mem.byte a

/-- Every register reads as before. -/
def SameRegs (s t : State) : Prop := ∀ j, t.reg j = s.reg j

/-- The one change from `s` to `t` is that register `r` now reads `v`; none where `r` is 0. -/
def WritesOnly (s t : State) (r : RegIndex) (v : Word) : Prop :=
  (∀ j, t.reg j = if j = r ∧ r ≠ 0 then v else s.reg j) ∧ t.pc = s.pc ∧ t.run = s.run ∧ SameMemory s t

/-- The one change from `s` to `t` is the program counter. -/
def MovesOnly (s t : State) (target : Nat) : Prop :=
  t.pc.toNat = target ∧ SameRegs s t ∧ t.run = s.run ∧ SameMemory s t

/-- The one change from `s` to `t` is that the machine has stopped with a status. -/
def StopsOnly (s t : State) (st : Status) : Prop :=
  t.run = .stopped st ∧ SameRegs s t ∧ t.pc = s.pc ∧ SameMemory s t

/-- The one change from `s` to `t` is that the four bytes from `a` up hold `v`, most significant first. -/
def StoresOnly (s t : State) (a : Nat) (v : Word) : Prop :=
  ((t.mem.byte a).toNat = bits v 31 24 ∧ (t.mem.byte (a + 1)).toNat = bits v 23 16 ∧
    (t.mem.byte (a + 2)).toNat = bits v 15 8 ∧ (t.mem.byte (a + 3)).toNat = bits v 7 0) ∧
  (∀ b, ¬ (a ≤ b ∧ b < a + 4) → t.mem.byte b = s.mem.byte b) ∧ t.mem.size = s.mem.size ∧
    SameRegs s t ∧ t.pc = s.pc ∧ t.run = s.run

/-! ### Encodings -/

/-- A word with opcode 0 and the given function code is the instruction with its three register
fields in the places of R49, whatever its `shamt`. -/
def DecodesR (fn : OpcodeMap → BitVec 6) (mk : RegIndex → RegIndex → RegIndex → Instr) : Prop :=
  ∀ p : OpcodeMap, p.WF → ∀ w : Word, bits w 31 26 = 0 → bits w 5 0 = (fn p).toNat →
    ∃ rd rs rt : RegIndex, decodeWordWith p w = .ok (mk rd rs rt) ∧
      rd.val = bits w 15 11 ∧ rs.val = bits w 25 21 ∧ rt.val = bits w 20 16

/-- A word with the given opcode is the instruction with its fields in the places of the
immediate format of R49. -/
def DecodesI (op : OpcodeMap → BitVec 6) (mk : (rs rt : RegIndex) → BitVec 16 → Instr) : Prop :=
  ∀ p : OpcodeMap, p.WF → ∀ w : Word, bits w 31 26 = (op p).toNat →
    ∃ (rs rt : RegIndex) (imm : BitVec 16), decodeWordWith p w = .ok (mk rs rt imm) ∧
      rs.val = bits w 25 21 ∧ rt.val = bits w 20 16 ∧ imm.toNat = bits w 15 0

/-- The bits of a word that the instruction it decodes to reads, its opcode bits among them (R51). -/
def readBits : Instr → Word
  | .add _ _ _ => 0xFFFFF83F
  | .sub _ _ _ => 0xFFFFF83F
  | .slt _ _ _ => 0xFFFFF83F
  | .addi _ _ _ => 0xFFFFFFFF
  | .lw _ _ _ => 0xFFFFFFFF
  | .sw _ _ _ => 0xFFFFFFFF
  | .beq _ _ _ => 0xFFFFFFFF
  | .j _ => 0xFFFFFFFF
  | .halt => 0xFC000000

/-- The slot of each primary handler (R70). -/
def primarySlot (p : OpcodeMap) : PrimaryHandler → BitVec 6
  | .j => p.opJ
  | .beq => p.opBeq
  | .addi => p.opAddi
  | .halt => p.opHalt
  | .lw => p.opLw
  | .sw => p.opSw

/-- The slot of each secondary handler (R70). -/
def secondarySlot (p : OpcodeMap) : SecondaryHandler → BitVec 6
  | .add => p.fnAdd
  | .sub => p.fnSub
  | .slt => p.fnSlt

/-! ### The tables of R17 and R20 -/

/-- The registers an instruction reads (R17). -/
def sources : Instr → List RegIndex
  | .add _ rs rt => [rs, rt]
  | .sub _ rs rt => [rs, rt]
  | .slt _ rs rt => [rs, rt]
  | .addi _ rs _ => [rs]
  | .lw _ rs _ => [rs]
  | .sw rt rs _ => [rs, rt]
  | .beq rs rt _ => [rs, rt]
  | .j _ => []
  | .halt => []

/-- The register an instruction may write (R17). -/
def destination : Instr → Option RegIndex
  | .add rd _ _ => some rd
  | .sub rd _ _ => some rd
  | .slt rd _ _ => some rd
  | .addi rt _ _ => some rt
  | .lw rt _ _ => some rt
  | .sw _ _ _ => none
  | .beq _ _ _ => none
  | .j _ => none
  | .halt => none

/-- The address of the data access of an instruction in a state, if it makes one (R82). -/
def dataAddress (s : State) : Instr → Option Word
  | .lw _ rs imm => some (s.effectiveAddress rs imm)
  | .sw _ rs imm => some (s.effectiveAddress rs imm)
  | .add _ _ _ => none
  | .sub _ _ _ => none
  | .slt _ _ _ => none
  | .addi _ _ _ => none
  | .beq _ _ _ => none
  | .j _ => none
  | .halt => none

/-- The data access of an instruction is out of bounds (R92). -/
def DataFault (s : State) (i : Instr) : Prop := ∃ a, dataAddress s i = some a ∧ ¬ s.mem.InBounds a

/-- The address a store writes from, if the instruction is a store and it is in bounds (R84). -/
def storeAddress (s : State) : Instr → Option Nat
  | .sw _ rs imm =>
    if s.mem.InBounds (s.effectiveAddress rs imm) then some (s.effectiveAddress rs imm).toNat else none
  | .add _ _ _ => none
  | .sub _ _ _ => none
  | .slt _ _ _ => none
  | .addi _ _ _ => none
  | .lw _ _ _ => none
  | .beq _ _ _ => none
  | .j _ => none
  | .halt => none

/-- The table of R20 for an instruction at address `a`, over plain numbers. -/
def pcAfter (s : State) (a : Nat) : Instr → Nat
  | .beq rs rt imm =>
    if s.reg rs = s.reg rt then ((a + 4) % 2 ^ 32 + sextNat imm * 4 % 2 ^ 32) % 2 ^ 32
    else (a + 4) % 2 ^ 32
  | .j addr => (a + 4) % 2 ^ 32 / 2 ^ 28 * 2 ^ 28 + 4 * addr.toNat
  | .add _ _ _ => (a + 4) % 2 ^ 32
  | .sub _ _ _ => (a + 4) % 2 ^ 32
  | .slt _ _ _ => (a + 4) % 2 ^ 32
  | .addi _ _ _ => (a + 4) % 2 ^ 32
  | .lw _ _ _ => (a + 4) % 2 ^ 32
  | .sw _ _ _ => (a + 4) % 2 ^ 32
  | .halt => (a + 4) % 2 ^ 32

/-- The instruction a Step of the configured machine runs in a state, if the fetch and the
dispatch succeed. -/
def Runs (s : State) (i : Instr) : Prop := ∃ w, s.fetch = some w ∧ decodeWord w = .ok i

/-- What a line of assembly sets, field by field (R59). -/
def Sets : Asm → Instr → Prop
  | .add rd rs rt, i => ∃ d a b, i = .add d a b ∧ d.val = rd ∧ a.val = rs ∧ b.val = rt
  | .sub rd rs rt, i => ∃ d a b, i = .sub d a b ∧ d.val = rd ∧ a.val = rs ∧ b.val = rt
  | .slt rd rs rt, i => ∃ d a b, i = .slt d a b ∧ d.val = rd ∧ a.val = rs ∧ b.val = rt
  | .addi rt rs imm, i => ∃ b a m, i = .addi b a m ∧ b.val = rt ∧ a.val = rs ∧ signed16 m = imm
  | .lw rt imm rs, i => ∃ b a m, i = .lw b a m ∧ b.val = rt ∧ a.val = rs ∧ signed16 m = imm
  | .sw rt imm rs, i => ∃ b a m, i = .sw b a m ∧ b.val = rt ∧ a.val = rs ∧ signed16 m = imm
  | .beq rs rt off, i => ∃ a b m, i = .beq a b m ∧ a.val = rs ∧ b.val = rt ∧ signed16 m = off
  | .j addr, i => ∃ a, i = .j a ∧ a.toNat = addr
  | .halt, i => i = .halt

end Sys2Proof.Claims

open Sys2Proof Sys2Proof.Machine Sys2Proof.Claims

/-! ### Encoding -/

/-- Decoding an encoded instruction gives it back, for every instruction, every operand and all
opcode numbers within the constraints of R8; and from bytes, with the rest of the bytes. -/
def Obligations.DecodeOfEncodeIsTheInstruction : Prop :=
  ∀ p : OpcodeMap, p.WF → ∀ i : Instr,
    decodeWordWith p (encodeWith p i) = .ok i ∧
      ∀ rest : List Byte, decodeBytes p (encodeBytes p i ++ rest) = .ok (i, rest)

/-- R51: two words decode to the same instruction exactly when they agree in the bits it reads;
the encoder's word is one of them. -/
def Obligations.UnreadBitsSelectTheSameInstruction : Prop :=
  ∀ p : OpcodeMap, p.WF → ∀ (w : Word) (i : Instr), decodeWordWith p w = .ok i →
    encodeWith p i &&& readBits i = w &&& readBits i ∧
      ∀ w' : Word, decodeWordWith p w' = .ok i ↔ w' &&& readBits i = w &&& readBits i

/-- Under the default numbers a word is the instruction of a row of R56 exactly when it matches
the row's mask, and a word that matches none of the nine is rejected. The numbers are the chosen
defaults of R8 and D7: log 4 (PRESUMED) and, for `halt`, log 5 (DEDUCED). -/
def Obligations.DecodeFollowsTheNineRows : Prop :=
  ∀ w : Word,
    ((∃ rd rs rt, decodeWord w = .ok (.add rd rs rt)) ↔ w &&& 0xFC00003F#32 = 0x00000020#32) ∧
    ((∃ rd rs rt, decodeWord w = .ok (.sub rd rs rt)) ↔ w &&& 0xFC00003F#32 = 0x00000022#32) ∧
    ((∃ rd rs rt, decodeWord w = .ok (.slt rd rs rt)) ↔ w &&& 0xFC00003F#32 = 0x0000002A#32) ∧
    ((∃ rt rs imm, decodeWord w = .ok (.addi rt rs imm)) ↔ w &&& 0xFC000000#32 = 0x20000000#32) ∧
    ((∃ rt rs imm, decodeWord w = .ok (.lw rt rs imm)) ↔ w &&& 0xFC000000#32 = 0x8C000000#32) ∧
    ((∃ rt rs imm, decodeWord w = .ok (.sw rt rs imm)) ↔ w &&& 0xFC000000#32 = 0xAC000000#32) ∧
    ((∃ rs rt imm, decodeWord w = .ok (.beq rs rt imm)) ↔ w &&& 0xFC000000#32 = 0x10000000#32) ∧
    ((∃ addr, decodeWord w = .ok (.j addr)) ↔ w &&& 0xFC000000#32 = 0x08000000#32) ∧
    (decodeWord w = .ok .halt ↔ w &&& 0xFC000000#32 = 0x3C000000#32)

/-- The words that are illegal (R57) are exactly those whose opcode, or opcode 0 and function
code, is not registered; dispatching one stops the machine with `invalid-opcode` and changes
nothing else. The last clause alone, that the all-zero and the all-one word are illegal, is about
the chosen default numbers: log 4 (PRESUMED) and log 5 (DEDUCED). -/
def Obligations.UnregisteredWordsRaiseInvalidOpcode : Prop :=
  (∀ p : OpcodeMap, p.WF → ∀ w : Word,
    ((∃ e, decodeWordWith p w = .error e) ↔
      (bits w 31 26 ≠ 0 ∧ ∀ op ∈ p.primaries, bits w 31 26 ≠ op.toNat) ∨
      (bits w 31 26 = 0 ∧ ∀ fn ∈ p.functs, bits w 5 0 ≠ fn.toNat)) ∧
    ((∃ e, decodeWordWith p w = .error e) →
      ∀ s : State, ∃ t, executeWord p w s = .next t ∧ StopsOnly s t .invalidOpcode)) ∧
  (∃ e, decodeWord 0x00000000 = .error e) ∧ (∃ e, decodeWord 0xFFFFFFFF = .error e)

/-- Words written out from the encodings of the spec decode to their instructions. The opcode
numbers in them are the chosen defaults: log 4 (PRESUMED) and, for `halt`, log 5 (DEDUCED). -/
def Obligations.WrittenOutWordsDecode : Prop :=
  decodeWord 0x20010005 = .ok (.addi 1 0 5) ∧
  decodeWord 0x3F000000 = .ok .halt ∧
  decodeWord 0x00221FE0 = .ok (.add 3 1 2) ∧
  decodeWord 0x00221822 = .ok (.sub 3 1 2) ∧
  decodeWord 0x0022182A = .ok (.slt 3 1 2) ∧
  decodeWord 0x8C22FFFC = .ok (.lw 2 1 0xFFFC) ∧
  decodeWord 0xAC410004 = .ok (.sw 1 2 4) ∧
  decodeWord 0x10220003 = .ok (.beq 1 2 3) ∧
  decodeWord 0x0BFFFFFF = .ok (.j 0x3FFFFFF)

/-- R48: the eight fields and their bit positions. -/
def Obligations.FieldsAreTheStatedBitRanges : Prop :=
  ∀ w : Word,
    (extractFields w).opcode.toNat = bits w 31 26 ∧ (extractFields w).rs.toNat = bits w 25 21 ∧
    (extractFields w).rt.toNat = bits w 20 16 ∧ (extractFields w).rd.toNat = bits w 15 11 ∧
    (extractFields w).shamt.toNat = bits w 10 6 ∧ (extractFields w).funct.toNat = bits w 5 0 ∧
    (extractFields w).imm.toNat = bits w 15 0 ∧ (extractFields w).addr.toNat = bits w 25 0

/-- R70: each handler stands in its own slot and in no other, no other slot is populated, and
slot 0 of the primary table holds none. -/
def Obligations.TablesHoldExactlyTheNineHandlers : Prop :=
  ∀ p : OpcodeMap, p.WF →
    (∀ (op : BitVec 6) (h : PrimaryHandler), primaryTable p op = some h ↔ op = primarySlot p h) ∧
    (∀ (fn : BitVec 6) (h : SecondaryHandler), secondaryTable p fn = some h ↔ fn = secondarySlot p h) ∧
    primaryTable p opRtype = none

/-- R59: a line whose operands are in range sets its fields as the notation says; any other line
is no instruction. -/
def Obligations.AssemblyLinesSetTheirFields : Prop :=
  ∀ l : Asm, (l.wf = true → ∃ i, assemble l = some i ∧ Sets l i) ∧ (l.wf = false → assemble l = none)

/-! ### Registers and operands -/

/-- R16: register 0 reads zero and discards writes, for every instruction that names it as a
destination, and the discarded load keeps its bounds check; every other register reads what was
written to it last. -/
def Obligations.RegisterZeroIsHardwired : Prop :=
  ∀ (s : State) (rs rt : RegIndex) (imm : BitVec 16),
    s.reg 0 = 0 ∧
    exec (.add 0 rs rt) s = .next s ∧ exec (.sub 0 rs rt) s = .next s ∧
    exec (.slt 0 rs rt) s = .next s ∧ exec (.addi 0 rs imm) s = .next s ∧
    (s.mem.InBounds (s.effectiveAddress rs imm) → exec (.lw 0 rs imm) s = .next s) ∧
    (¬ s.mem.InBounds (s.effectiveAddress rs imm) →
      ∃ t, exec (.lw 0 rs imm) s = .next t ∧ StopsOnly s t .memoryOutOfBounds) ∧
    ∀ (i j : RegIndex) (v : Word), i ≠ 0 →
      (s.writeReg i v).reg i = v ∧ (j ≠ i → (s.writeReg i v).reg j = s.reg j)

/-- R11: the sign extension, over plain numbers. -/
def Obligations.SignExtensionCopiesTheSignBit : Prop :=
  ∀ v : BitVec 16, (sext32 v).toNat = sextNat v

/-- R53: the branch displacement is four times the signed immediate, inside its stated range,
and is added to the advanced counter. -/
def Obligations.BranchDisplacementIsFourTimesTheImmediate : Prop :=
  ∀ (imm : BitVec 16) (pcNext : Word),
    signed (branchDisplacement imm) = 4 * signed16 imm ∧
    -131072 ≤ signed (branchDisplacement imm) ∧ signed (branchDisplacement imm) ≤ 131068 ∧
    ((branchTarget pcNext imm).toNat : Int) = ((pcNext.toNat : Int) + 4 * signed16 imm) % 2 ^ 32

/-! ### Memory -/

/-- R33: the bounds check is made over the unbounded integers, so the top three addresses are
out of bounds for every legal size, and every address is when the size is below 4. -/
def Obligations.BoundsCheckNeverWraps : Prop :=
  ∀ (m : Memory) (a : Word),
    (m.InBounds a ↔ a.toNat + 3 < m.size) ∧
    (MemSizeLegal m.size → 0xFFFFFFFD ≤ a.toNat → ¬ m.InBounds a) ∧
    (m.size < 4 → ¬ m.InBounds a)

/-- R34: the checked read gives the big-endian word, and nothing out of bounds. -/
def Obligations.MemReadIsBigEndian : Prop :=
  ∀ (m : Memory) (a : Word),
    (m.InBounds a → ∃ v, m.load a = some v ∧ v.toNat = bigEndian m a.toNat) ∧
    (¬ m.InBounds a → m.load a = none)

/-- The checked write of R35 sets the four bytes, most significant first, and changes no other
byte; out of bounds it writes nothing (R36). The canonical form it assumes and keeps is the
model's choice, log 16 (DESIGN CHOICE), and no rule of the spec. -/
def Obligations.MemWriteIsBigEndianAndWhole : Prop :=
  ∀ (m : Memory) (a v : Word), m.wf →
    (m.InBounds a → ∃ m', m.store a v = some m' ∧ m'.wf ∧ m'.size = m.size ∧
      (m'.byte a.toNat).toNat = bits v 31 24 ∧ (m'.byte (a.toNat + 1)).toNat = bits v 23 16 ∧
      (m'.byte (a.toNat + 2)).toNat = bits v 15 8 ∧ (m'.byte (a.toNat + 3)).toNat = bits v 7 0 ∧
      ∀ b, ¬ (a.toNat ≤ b ∧ b < a.toNat + 4) → m'.byte b = m.byte b) ∧
    (¬ m.InBounds a → m.store a v = none)

/-! ### The nine instructions -/

/-- R78: `add`, its encoding and its whole effect. -/
def Obligations.AddWritesTheWrappedSum : Prop :=
  DecodesR OpcodeMap.fnAdd .add ∧
  ∀ (rd rs rt : RegIndex) (s : State), ∃ t v, exec (.add rd rs rt) s = .next t ∧
    v.toNat = ((s.reg rs).toNat + (s.reg rt).toNat) % 2 ^ 32 ∧ WritesOnly s t rd v

/-- R79: `sub`, its encoding and its whole effect. -/
def Obligations.SubWritesTheWrappedDifference : Prop :=
  DecodesR OpcodeMap.fnSub .sub ∧
  ∀ (rd rs rt : RegIndex) (s : State), ∃ t v, exec (.sub rd rs rt) s = .next t ∧
    (v.toNat : Int) = ((s.reg rs).toNat - (s.reg rt).toNat : Int) % 2 ^ 32 ∧ WritesOnly s t rd v

/-- R80: `slt`, its encoding and its whole effect. -/
def Obligations.SltWritesTheSignedComparison : Prop :=
  DecodesR OpcodeMap.fnSlt .slt ∧
  ∀ (rd rs rt : RegIndex) (s : State), ∃ t v, exec (.slt rd rs rt) s = .next t ∧
    v.toNat = (if signed (s.reg rs) < signed (s.reg rt) then 1 else 0) ∧ WritesOnly s t rd v

/-- R81: `addi`, its encoding and its whole effect. -/
def Obligations.AddiAddsTheSignExtendedImmediate : Prop :=
  DecodesI OpcodeMap.opAddi (fun rs rt imm => .addi rt rs imm) ∧
  ∀ (rt rs : RegIndex) (imm : BitVec 16) (s : State), ∃ t v, exec (.addi rt rs imm) s = .next t ∧
    v.toNat = ((s.reg rs).toNat + sextNat imm) % 2 ^ 32 ∧ WritesOnly s t rt v

/-- R82, R83: `lw`, its encoding, its address and its whole effect, in bounds and out of bounds,
whatever the destination. -/
def Obligations.LwLoadsTheWordOrStops : Prop :=
  DecodesI OpcodeMap.opLw (fun rs rt imm => .lw rt rs imm) ∧
  ∀ (rt rs : RegIndex) (imm : BitVec 16) (s : State),
    (s.effectiveAddress rs imm).toNat = eaNat s rs imm ∧
    (eaNat s rs imm + 3 < s.mem.size →
      ∃ t v, exec (.lw rt rs imm) s = .next t ∧ v.toNat = bigEndian s.mem (eaNat s rs imm) ∧
        WritesOnly s t rt v) ∧
    (¬ eaNat s rs imm + 3 < s.mem.size →
      ∃ t, exec (.lw rt rs imm) s = .next t ∧ StopsOnly s t .memoryOutOfBounds)

/-- R82, R84: `sw`, its encoding, its address and its whole effect, in bounds and out of bounds.
The canonical form of the memory is the invariant `State.Inv` keeps. -/
def Obligations.SwStoresTheWordOrStops : Prop :=
  DecodesI OpcodeMap.opSw (fun rs rt imm => .sw rt rs imm) ∧
  ∀ (rt rs : RegIndex) (imm : BitVec 16) (s : State), s.mem.wf →
    (s.effectiveAddress rs imm).toNat = eaNat s rs imm ∧
    (eaNat s rs imm + 3 < s.mem.size →
      ∃ t, exec (.sw rt rs imm) s = .next t ∧ StoresOnly s t (eaNat s rs imm) (s.reg rt)) ∧
    (¬ eaNat s rs imm + 3 < s.mem.size →
      ∃ t, exec (.sw rt rs imm) s = .next t ∧ StopsOnly s t .memoryOutOfBounds)

/-- R86: `beq`, its encoding and its whole effect, taken and not taken. -/
def Obligations.BeqBranchesFromTheAdvancedCounter : Prop :=
  DecodesI OpcodeMap.opBeq (fun rs rt imm => .beq rs rt imm) ∧
  ∀ (rs rt : RegIndex) (imm : BitVec 16) (s : State), ∃ t, exec (.beq rs rt imm) s = .next t ∧
    MovesOnly s t
      (if (s.reg rs).toNat = (s.reg rt).toNat then
        (s.pc.toNat + sextNat imm * 2 ^ 2 % 2 ^ 32) % 2 ^ 32
      else s.pc.toNat)

/-- R87: `j`, its encoding and its whole effect: the top four bits of the counter stay, the low
28 become the field times four. -/
def Obligations.JumpKeepsTheTopFourBits : Prop :=
  (∀ p : OpcodeMap, p.WF → ∀ w : Word, bits w 31 26 = p.opJ.toNat →
    ∃ addr : BitVec 26, decodeWordWith p w = .ok (.j addr) ∧ addr.toNat = bits w 25 0) ∧
  ∀ (addr : BitVec 26) (s : State), ∃ t, exec (.j addr) s = .next t ∧
    MovesOnly s t (s.pc.toNat / 2 ^ 28 * 2 ^ 28 + 4 * addr.toNat)

/-- `halt` (R88): every word that is one, under all opcode numbers, and its whole effect. The
clause on the words 0x3C000000 to 0x3FFFFFFF is about the default OP_HALT: log 5 (DEDUCED). -/
def Obligations.HaltStopsWithSuccess : Prop :=
  (∀ p : OpcodeMap, p.WF → ∀ w : Word, bits w 31 26 = p.opHalt.toNat →
    decodeWordWith p w = .ok .halt) ∧
  (∀ w : Word, 0x3C000000 ≤ w.toNat ∧ w.toNat ≤ 0x3FFFFFFF → decodeWord w = .ok .halt) ∧
  ∀ s : State, ∃ t, exec .halt s = .next t ∧ StopsOnly s t .success

/-! ### Frames over all instructions -/

/-- R69: every handler ends in a next state, and changes at most the one register, the four
bytes, the counter or the run state that its own rule names. -/
def Obligations.HandlersChangeOnlyWhatTheirRuleNames : Prop :=
  ∀ (i : Instr) (s : State), s.mem.wf → ∃ t, exec i s = .next t ∧
    (∀ j, destination i ≠ some j → t.reg j = s.reg j) ∧
    (∀ b, (∀ a, storeAddress s i = some a → ¬ (a ≤ b ∧ b < a + 4)) → t.mem.byte b = s.mem.byte b) ∧
    t.mem.size = s.mem.size ∧
    ((∀ rs rt imm, i ≠ .beq rs rt imm) → (∀ addr, i ≠ .j addr) → t.pc = s.pc) ∧
    (i ≠ .halt → ¬ DataFault s i → t.run = s.run) ∧
    (DataFault s i → t = s.finish .memoryOutOfBounds)

/-- R17, the column of reads: two states that agree in the counter, the run state, the memory and
the source registers of an instruction get the same changes from it. -/
def Obligations.HandlersReadOnlyTheirSources : Prop :=
  ∀ (i : Instr) (s s' : State), s'.pc = s.pc → s'.run = s.run → s'.mem = s.mem →
    (∀ r ∈ sources i, s'.reg r = s.reg r) →
    ∃ t t', exec i s = .next t ∧ exec i s' = .next t' ∧
      t'.pc = t.pc ∧ t'.run = t.run ∧ t'.mem = t.mem ∧
      ∀ r, t'.reg r = t.reg r ∨ (t.reg r = s.reg r ∧ t'.reg r = s'.reg r ∧ destination i ≠ some r) ∨
        (t.reg r = s.reg r ∧ t'.reg r = s'.reg r ∧ DataFault s i)

/-! ### The Step -/

/-- When the four bytes at the program counter are a word that decodes, a Step of a running
machine is the handler's, from the state whose only difference is the counter advanced by 4. -/
def Obligations.StepRunsTheDecodedInstruction : Prop :=
  ∀ (s : State) (w : Word) (i : Instr), s.run = .running → s.pc.toNat + 3 < s.mem.size →
    w.toNat = bigEndian s.mem s.pc.toNat → decodeWord w = .ok i →
    step s = exec i (s.setPc (s.pc + 4))

/-- The bytes of an encoded instruction at the program counter run that instruction, under all
opcode numbers within the constraints of R8. -/
def Obligations.EncodedInstructionInMemoryRuns : Prop :=
  ∀ (p : OpcodeMap) (i : Instr) (s : State), p.WF → s.run = .running →
    s.pc.toNat + 3 < s.mem.size →
    (List.range 4).map (fun k => s.mem.byte (s.pc.toNat + k)) = encodeBytes p i →
    stepWith p s = exec i (s.setPc (s.pc + 4))

/-- R62, R63: a fetch in bounds gives the big-endian word at the program counter, aligned or not;
one outside the memory stops the machine, the counter not advanced and nothing else changed. -/
def Obligations.FetchReadsTheWordOrStops : Prop :=
  ∀ s : State,
    (s.pc.toNat + 3 < s.mem.size → ∃ w, s.fetch = some w ∧ w.toNat = bigEndian s.mem s.pc.toNat) ∧
    (s.run = .running → ¬ s.pc.toNat + 3 < s.mem.size →
      s.fetch = none ∧ ∃ t, step s = .next t ∧ StopsOnly s t .memoryOutOfBounds)

/-- R68: a dispatch miss changes exactly the counter, advanced by 4, and the run state. -/
def Obligations.DispatchMissStopsAfterTheAdvance : Prop :=
  ∀ (s : State) (w : Word) (e : Reject), s.run = .running → s.fetch = some w →
    decodeWord w = .error e →
    ∃ t, step s = .next t ∧ t.run = .stopped .invalidOpcode ∧
      t.pc.toNat = (s.pc.toNat + 4) % 2 ^ 32 ∧ SameRegs s t ∧ SameMemory s t

/-- R74: a stopped machine takes no Step, and a run leaves it as it is. -/
def Obligations.StoppedMachineTakesNoStep : Prop :=
  ∀ (s : State) (st : Status), s.run = .stopped st →
    step s = .fault (.stopped st) ∧ ∀ n, runFor n s = s

/-- A running machine always has a next state, only a stopped one has none, and no Step is refused. -/
def Obligations.StepsExactlyWhileRunning : Prop :=
  ∀ s : State, ((∃ t, step s = .next t) ↔ s.run = .running) ∧
    ((∃ f, step s = .fault f) ↔ s.run ≠ .running) ∧ ∀ r, step s ≠ .refused r

/-- R20: how each outcome of a Step leaves the program counter. -/
def Obligations.EveryOutcomeLeavesTheTabulatedCounter : Prop :=
  ∀ s : State, s.run = .running → ∃ t, step s = .next t ∧
    (s.fetch = none → t.pc = s.pc) ∧
    (∀ w e, s.fetch = some w → decodeWord w = .error e → t.pc.toNat = (s.pc.toNat + 4) % 2 ^ 32) ∧
    (∀ i, Runs s i → t.pc.toNat = pcAfter s s.pc.toNat i)

/-- What a Step of a running machine stops with, and why: each stop has exactly its causes, in
the order of the checks, and no other status occurs. -/
def Obligations.StopsHaveExactlyTheirCauses : Prop :=
  ∀ s t : State, step s = .next t →
    (t.run = .stopped .invalidOpcode ↔ ∃ w e, s.fetch = some w ∧ decodeWord w = .error e) ∧
    (t.run = .stopped .memoryOutOfBounds ↔ s.fetch = none ∨ ∃ i, Runs s i ∧ DataFault s i) ∧
    (t.run = .stopped .success ↔ Runs s .halt) ∧
    t.run.Legal

/-- A failing Step has done none of its own register or memory effects, and leaves the counter
at the failing fetch or just past the failing instruction. -/
def Obligations.FailedStepChangesNoRegisterOrByte : Prop :=
  ∀ s t : State, step s = .next t → t.run.Failed →
    SameRegs s t ∧ SameMemory s t ∧
      ((s.fetch = none ∧ t.pc = s.pc) ∨ (s.fetch ≠ none ∧ t.pc = s.pc + 4))

/-- If the counter is in bounds after a stop with `memory-out-of-bounds`, the stop was the data
access of the load or store at the counter minus 4. -/
def Obligations.InBoundsCounterTellsADataFault : Prop :=
  ∀ s t : State, step s = .next t → t.run = .stopped .memoryOutOfBounds → t.mem.InBounds t.pc →
    ∃ w i, t.mem.load (t.pc - 4) = some w ∧ decodeWord w = .ok i ∧ DataFault t i

/-- `beq $0,$0,-1` at any in-bounds address goes to itself, and the machine runs for ever (R75).
That 0x1000FFFF is this word rests on the default OP_BEQ: log 4 (PRESUMED). -/
def Obligations.SelfBranchNeverEnds : Prop :=
  ∀ s : State, s.run = .running → s.fetch = some 0x1000FFFF →
    step s = .next s ∧ ∀ n, (runFor n s).run = .running ∧ (runFor n s).result = none

/-- R111: what the host reads after a stop is the state as it stands; it reads nothing before. -/
def Obligations.ObservationIsAPureReadAfterTheStop : Prop :=
  ∀ s : State, (s.observe = none ↔ s.run = .running) ∧
    ∀ o, s.observe = some o → s.run = .stopped o.status ∧ o.pc = s.pc ∧ o.mem = s.mem ∧
      o.regs.length = 32 ∧ ∀ r : RegIndex, o.regs[r.val]? = some (s.reg r)

/-! ### Stores, loads and fetches -/

/-- A load from the address just stored to, by any base and displacement that reach it, gives the
stored word. -/
def Obligations.LoadAfterStoreGivesTheStoredWord : Prop :=
  ∀ (s t : State) (rt rs : RegIndex) (imm : BitVec 16) (rt' rs' : RegIndex) (imm' : BitVec 16),
    s.mem.wf → s.mem.InBounds (s.effectiveAddress rs imm) → exec (.sw rt rs imm) s = .next t →
    t.effectiveAddress rs' imm' = s.effectiveAddress rs imm →
    ∃ u, exec (.lw rt' rs' imm') t = .next u ∧ WritesOnly t u rt' (s.reg rt)

/-- Loading a word and storing the same register back to the same address leaves the memory as
the same data. -/
def Obligations.LoadThenStoreRestoresTheMemory : Prop :=
  ∀ (s : State) (rt rs : RegIndex) (imm : BitVec 16),
    s.mem.wf → rt ≠ 0 → rt ≠ rs → s.mem.InBounds (s.effectiveAddress rs imm) →
    ∃ t u, exec (.lw rt rs imm) s = .next t ∧ exec (.sw rt rs imm) t = .next u ∧ u.mem = s.mem

/-- A Step that stores a word at the address of the next instruction is seen by the next fetch. -/
def Obligations.StoredWordIsFetchedByTheNextStep : Prop :=
  ∀ (s t : State) (rt rs : RegIndex) (imm : BitVec 16),
    s.mem.wf → Runs s (.sw rt rs imm) → s.mem.InBounds (s.effectiveAddress rs imm) →
    s.effectiveAddress rs imm = s.pc + 4 → step s = .next t →
    t.fetch = some (s.reg rt) ∧
      ∀ i, decodeWord (s.reg rt) = .ok i → step t = exec i (t.setPc (t.pc + 4))

/-! ### Reset and the whole machine -/

/-- R29: after reset with any legal size and any image that fits, every piece of state has its
stated value. -/
def Obligations.LaunchLeavesTheStatedState : Prop :=
  ∀ (size : Nat) (image : List Byte), MemSizeLegal size → ImageFits image size →
    ∃ s, launch size image = .next s ∧ (∀ r, s.reg r = 0) ∧ s.pc = 0 ∧ s.run = .running ∧
      s.mem.size = size ∧ (∀ (i : Nat) (h : i < image.length), s.mem.byte i = image[i]) ∧
      ∀ i, image.length ≤ i → s.mem.byte i = 0

/-- A size of 0 is refused, every size from 1 to 2^32 is legal, and with 1, 2 or 3 bytes the first
Step stops the run with the counter at 0 (R106). That a size above 2^32 is refused as well is
decision D3 and the constraint of R8, in the form of log 15 (DESIGN CHOICE). -/
def Obligations.EverySizeFromOneIsLegal : Prop :=
  ∀ (size : Nat) (image : List Byte),
    (¬ MemSizeLegal size → launch size image = .refused .memorySizeIllegal) ∧
    (MemSizeLegal size → ImageFits image size → ∃ s, launch size image = .next s) ∧
    (∀ s, size < 4 → launch size image = .next s →
      ∃ t, step s = .next t ∧ StopsOnly s t .memoryOutOfBounds ∧ t.pc = 0)

/-- An image longer than the memory is refused (R109), in the form of log 15 (DESIGN CHOICE). -/
def Obligations.OversizeImageIsRefused : Prop :=
  ∀ (size : Nat) (image : List Byte), MemSizeLegal size → size < image.length →
    launch size image = .refused .imageTooLong

/-- The invariant holds at reset. The memory size there is the model's choice (log 2) and the
empty image as well (log 3). -/
def Obligations.ResetMeetsTheInvariant : Prop := State.reset.Inv

/-- Every Step keeps the invariant: canonical memory, aligned counter, legal run state, untouched
cell of register 0. -/
def Obligations.EveryStepKeepsTheInvariant : Prop :=
  ∀ s t : State, s.Inv → step s = .next t → t.Inv

/-- The invariant, and the memory size of the launch, hold in every state a launched machine
comes to, whatever the size and the image. -/
def Obligations.ReachableStatesMeetTheInvariant : Prop :=
  ∀ (size : Nat) (image : List Byte) (s : State), Reachable size image s →
    s.Inv ∧ s.mem.size = size

/-- R73: a run that stops has one of three results, and more Steps change neither the result
nor the state. -/
def Obligations.RunResultIsFinalAndOneOfThree : Prop :=
  ∀ (size : Nat) (image : List Byte) (s : State) (n : Nat) (st : Status),
    launch size image = .next s → (runFor n s).result = some st →
    (st = .success ∨ st = .invalidOpcode ∨ st = .memoryOutOfBounds) ∧
      ∀ m, n ≤ m → runFor m s = runFor n s
end

