-- ==== Sys2Proof/Laws/Decode.lean ====
section
/-! SUPPORT. Fields of the three formats, and the dispatch tables. -/

namespace Sys2Proof

@[simp] theorem regOfField_fieldOfReg (r : RegIndex) : regOfField (fieldOfReg r) = r := by
  apply Fin.ext
  simp [regOfField, fieldOfReg]

@[simp] theorem fieldOfReg_regOfField (f : BitVec 5) : fieldOfReg (regOfField f) = f := by
  simp [regOfField, fieldOfReg]

theorem regOfField_val (f : BitVec 5) : (regOfField f).val = f.toNat := rfl

/-! ### Fields of the formats -/

/-- Every field of a register-format word that its handlers read (R48, R49). -/
theorem extractFields_rFormat (rs rt rd : RegIndex) (fn : BitVec 6) :
    let f := extractFields (rFormat rs rt rd fn)
    f.opcode = opRtype ∧ f.rs = fieldOfReg rs ∧ f.rt = fieldOfReg rt ∧ f.rd = fieldOfReg rd ∧
      f.funct = fn := by
  refine ⟨?_, ?_, ?_, ?_, ?_⟩ <;>
    (apply BitVec.eq_of_getLsbD_eq; intro i hi
     simp only [extractFields, rFormat, BitVec.getLsbD_extractLsb', BitVec.getLsbD_append, hi,
       decide_true, Bool.true_and]
     repeat first | rw [if_pos (by omega)] | rw [if_neg (by omega)]
     congr 1
     omega)

/-- Every field of an immediate-format word (R48, R49). -/
theorem extractFields_iFormat (op : BitVec 6) (rs rt : RegIndex) (imm : BitVec 16) :
    let f := extractFields (iFormat op rs rt imm)
    f.opcode = op ∧ f.rs = fieldOfReg rs ∧ f.rt = fieldOfReg rt ∧ f.imm = imm := by
  refine ⟨?_, ?_, ?_, ?_⟩ <;>
    (apply BitVec.eq_of_getLsbD_eq; intro i hi
     simp only [extractFields, iFormat, BitVec.getLsbD_extractLsb', BitVec.getLsbD_append, hi,
       decide_true, Bool.true_and]
     repeat first | rw [if_pos (by omega)] | rw [if_neg (by omega)]
     congr 1
     omega)

/-- Every field of a jump-format word (R48, R49). -/
theorem extractFields_jFormat (op : BitVec 6) (addr : BitVec 26) :
    let f := extractFields (jFormat op addr)
    f.opcode = op ∧ f.addr = addr := by
  refine ⟨?_, ?_⟩ <;>
    (apply BitVec.eq_of_getLsbD_eq; intro i hi
     simp only [extractFields, jFormat, BitVec.getLsbD_extractLsb', BitVec.getLsbD_append, hi,
       decide_true, Bool.true_and]
     repeat first | rw [if_pos (by omega)] | rw [if_neg (by omega)]
     congr 1
     omega)

/-! ### Tables -/

/-- What a record within the constraints of R8 says, number by number. -/
theorem OpcodeMap.WF.primary {p : OpcodeMap} (h : p.WF) :
    primaryTable p p.opJ = some .j ∧ primaryTable p p.opBeq = some .beq ∧
    primaryTable p p.opAddi = some .addi ∧ primaryTable p p.opHalt = some .halt ∧
    primaryTable p p.opLw = some .lw ∧ primaryTable p p.opSw = some .sw := by
  have h1 := h.1
  simp only [OpcodeMap.primaries, List.nodup_cons, List.mem_cons, not_or] at h1
  simp [primaryTable, eq_comm, h1]

theorem OpcodeMap.WF.secondary {p : OpcodeMap} (h : p.WF) :
    secondaryTable p p.fnAdd = some .add ∧ secondaryTable p p.fnSub = some .sub ∧
    secondaryTable p p.fnSlt = some .slt := by
  have h1 := h.2.2
  simp only [OpcodeMap.functs, List.nodup_cons, List.mem_cons, not_or] at h1
  simp [secondaryTable, eq_comm, h1]

/-- No registered primary opcode is OP_RTYPE (R8). -/
theorem OpcodeMap.WF.ne_rtype {p : OpcodeMap} (h : p.WF) :
    p.opJ ≠ opRtype ∧ p.opBeq ≠ opRtype ∧ p.opAddi ≠ opRtype ∧ p.opHalt ≠ opRtype ∧
    p.opLw ≠ opRtype ∧ p.opSw ≠ opRtype := by
  have h1 := h.2.1
  simp only [OpcodeMap.primaries, List.mem_cons, not_or] at h1
  tauto

/-- The configured numbers meet the constraints. -/
theorem opcodes_wf : opcodes.WF := by decide

/-- Routing by the secondary table. -/
theorem decodeWordWith_secondary {p : OpcodeMap} {w : Word} {h : SecondaryHandler}
    (ho : (extractFields w).opcode = opRtype) (hf : secondaryTable p (extractFields w).funct = some h) :
    decodeWordWith p w = .ok (secondaryInstr (extractFields w) h) := by
  simp [decodeWordWith, route, ho, hf]

/-- Routing by the primary table. -/
theorem decodeWordWith_primary {p : OpcodeMap} {w : Word} {h : PrimaryHandler}
    (ho : (extractFields w).opcode ≠ opRtype) (hp : primaryTable p (extractFields w).opcode = some h) :
    decodeWordWith p w = .ok (primaryInstr (extractFields w) h) := by
  simp [decodeWordWith, route, ho, hp]

/-- Everything a successful decode can be. -/
theorem decodeWordWith_ok {p : OpcodeMap} {w : Word} {i : Instr} (h : decodeWordWith p w = .ok i) :
    ((extractFields w).opcode = opRtype ∧
        ∃ k, secondaryTable p (extractFields w).funct = some k ∧ i = secondaryInstr (extractFields w) k) ∨
    ((extractFields w).opcode ≠ opRtype ∧
        ∃ k, primaryTable p (extractFields w).opcode = some k ∧ i = primaryInstr (extractFields w) k) := by
  unfold decodeWordWith route at h
  split at h <;> split at h <;> simp_all

end Sys2Proof
end

