-- ==== Sys2Proof/Laws/State.lean ====
section
/-! SUPPORT. What each update of State leaves in each field and register. -/

namespace Sys2Proof.Machine

variable (s : State) (i j : RegIndex) (v : Word) (st : Status) (m : Memory) (w : Word)

/-! ### Register writes -/

@[simp] theorem State.writeReg_pc : (s.writeReg i v).pc = s.pc := rfl
@[simp] theorem State.writeReg_run : (s.writeReg i v).run = s.run := rfl
@[simp] theorem State.writeReg_mem : (s.writeReg i v).mem = s.mem := rfl

@[simp] theorem State.reg_zero : s.reg 0 = 0 := rfl

@[simp] theorem State.writeReg_zero : s.writeReg 0 v = s := rfl

/-- The whole effect of a register write, as reads show it. -/
theorem State.reg_writeReg :
    (s.writeReg i v).reg j = if j = i ∧ i ≠ 0 then v else s.reg j := by
  rcases eq_or_ne i 0 with rfl | hi
  · simp
  · rcases eq_or_ne j i with rfl | hj
    · simp [State.writeReg, State.reg, hi]
    · have hv : i.val ≠ j.val := fun h => hj (Fin.ext h.symm)
      simp [State.writeReg, State.reg, hi, hj, Vector.getElem_set_ne, hv]

/-- A write never touches the cell of register 0. -/
@[simp] theorem State.writeReg_zero_cell : (s.writeReg i v).regs[0] = s.regs[0] := by
  rcases eq_or_ne i 0 with rfl | hi
  · rfl
  · have hv : i.val ≠ 0 := fun h => hi (Fin.ext h)
    simp [State.writeReg, hi, Vector.getElem_set_ne, hv]

/-! ### Program counter -/

@[simp] theorem State.setPc_pc : (s.setPc w).pc = w := rfl
@[simp] theorem State.setPc_regs : (s.setPc w).regs = s.regs := rfl
@[simp] theorem State.setPc_run : (s.setPc w).run = s.run := rfl
@[simp] theorem State.setPc_mem : (s.setPc w).mem = s.mem := rfl
@[simp] theorem State.reg_setPc : (s.setPc w).reg j = s.reg j := rfl

@[simp] theorem State.advancePc_pc : s.advancePc.pc = s.pc + 4 := rfl
@[simp] theorem State.advancePc_regs : s.advancePc.regs = s.regs := rfl
@[simp] theorem State.advancePc_run : s.advancePc.run = s.run := rfl
@[simp] theorem State.advancePc_mem : s.advancePc.mem = s.mem := rfl
@[simp] theorem State.reg_advancePc : s.advancePc.reg j = s.reg j := rfl

/-! ### Status -/

@[simp] theorem State.finish_pc : (s.finish st).pc = s.pc := rfl
@[simp] theorem State.finish_regs : (s.finish st).regs = s.regs := rfl
@[simp] theorem State.finish_mem : (s.finish st).mem = s.mem := rfl
@[simp] theorem State.finish_run : (s.finish st).run = st.runState s.run := rfl
@[simp] theorem State.reg_finish : (s.finish st).reg j = s.reg j := rfl
@[simp] theorem State.finish_success : s.finish .success = s := rfl

@[simp] theorem Status.runState_success (r : RunState) : Status.success.runState r = r := rfl
@[simp] theorem Status.runState_haltRequested (r : RunState) :
    Status.haltRequested.runState r = .stopped .success := rfl
@[simp] theorem Status.runState_invalidOpcode (r : RunState) :
    Status.invalidOpcode.runState r = .stopped .invalidOpcode := rfl
@[simp] theorem Status.runState_memoryOutOfBounds (r : RunState) :
    Status.memoryOutOfBounds.runState r = .stopped .memoryOutOfBounds := rfl

@[simp] theorem RunState.Legal_running : RunState.Legal .running := trivial
@[simp] theorem RunState.Legal_stopped :
    RunState.Legal (.stopped st) ↔ st = .success ∨ st = .invalidOpcode ∨ st = .memoryOutOfBounds :=
  Iff.rfl

/-! ### Memory field -/

@[simp] theorem State.reg_withMem : State.reg { s with mem := m } j = s.reg j := rfl

/-! ### The initial state -/

@[simp] theorem State.initial_reg (n : Nat) : (State.initial n).reg j = 0 := by
  simp [State.initial, State.reg]

end Sys2Proof.Machine
end

