-- ==== Sys2Proof/Laws/Memory.lean ====
section
/-! SUPPORT. Memory: read after write, and every operation keeps the canonical form. -/

namespace Sys2Proof.Machine

/-- Addresses strictly rising: the part of the canonical form the read and write laws rest on. -/
abbrev CellsSorted (l : List Host.Cell) : Prop := l.Pairwise (fun c d => c.1 < d.1)

/-- No listed byte is 0. -/
abbrev CellsNonzero (l : List Host.Cell) : Prop := ∀ c ∈ l, c.2 ≠ 0

/-! ### Byte lists -/

/-- Below the first listed address everything reads 0. -/
theorem cellsRead_eq_zero_of_lt {l : List Host.Cell} {a : Nat} (h : ∀ c ∈ l, a < c.1) :
    cellsRead l a = 0 := by
  cases l with
  | nil => rfl
  | cons c rest => simp [cellsRead, h c (by simp)]

/-- What a list holds after a write: what it held, or the byte written if that is not 0. -/
theorem mem_cellsWrite {l : List Host.Cell} {a : Nat} {v : Byte} {c : Host.Cell}
    (h : c ∈ cellsWrite l a v) : c ∈ l ∨ (c = (a, v) ∧ v ≠ 0) := by
  induction l with
  | nil =>
    simp only [cellsWrite] at h
    split at h <;> simp_all
  | cons d rest ih =>
    obtain ⟨k, b⟩ := d
    simp only [cellsWrite] at h
    split at h
    · split at h
      · exact .inl h
      · rcases List.mem_cons.1 h with h | h
        · exact .inr ⟨h, by assumption⟩
        · exact .inl h
    · split at h
      · split at h
        · exact .inl (List.mem_cons_of_mem _ h)
        · rcases List.mem_cons.1 h with h | h
          · exact .inr ⟨h, by assumption⟩
          · exact .inl (List.mem_cons_of_mem _ h)
      · rcases List.mem_cons.1 h with h | h
        · exact .inl (by simp [h])
        · rcases ih h with h | h
          · exact .inl (List.mem_cons_of_mem _ h)
          · exact .inr h

/-- A write keeps the addresses rising. -/
theorem cellsWrite_sorted {l : List Host.Cell} (a : Nat) (v : Byte) (h : CellsSorted l) :
    CellsSorted (cellsWrite l a v) := by
  induction l with
  | nil =>
    simp only [cellsWrite]
    split <;> simp
  | cons d rest ih =>
    obtain ⟨k, b⟩ := d
    obtain ⟨hk, hr⟩ := List.pairwise_cons.1 h
    simp only [cellsWrite]
    split
    · split
      · exact h
      · refine List.pairwise_cons.2 ⟨fun c hc => ?_, h⟩
        rcases List.mem_cons.1 hc with rfl | hc
        · assumption
        · exact lt_trans ‹a < k› (hk c hc)
    · split
      · subst_vars
        split
        · exact hr
        · exact List.pairwise_cons.2 ⟨hk, hr⟩
      · refine List.pairwise_cons.2 ⟨fun c hc => ?_, ih hr⟩
        rcases mem_cellsWrite hc with hc | ⟨rfl, -⟩
        · exact hk c hc
        · simp only at *; omega

/-- Read after write: the written address gives the value, every other what it gave. -/
theorem cellsRead_cellsWrite {l : List Host.Cell} (a b : Nat) (v : Byte) (h : CellsSorted l) :
    cellsRead (cellsWrite l a v) b = if b = a then v else cellsRead l b := by
  induction l with
  | nil =>
    simp only [cellsWrite]
    split
    · simp_all [cellsRead]
    · simp only [cellsRead]
      split <;> split <;> simp_all
  | cons d rest ih =>
    obtain ⟨k, c⟩ := d
    obtain ⟨hk, hr⟩ := List.pairwise_cons.1 h
    simp only [cellsWrite]
    split
    · by_cases hv : v = 0
      · simp only [hv, if_true]
        split
        · subst_vars; simp [cellsRead, *]
        · rfl
      · simp only [hv, if_false]
        by_cases hba : b = a
        · subst hba; simp [cellsRead]
        · by_cases hlt : b < a
          · have : b < k := by omega
            simp [cellsRead, hlt, hba, this]
          · simp [cellsRead, hlt, hba]
    · split
      · subst_vars
        have hz : cellsRead rest k = 0 := cellsRead_eq_zero_of_lt hk
        by_cases hv : v = 0
        · simp only [hv, if_true]
          by_cases hba : b = k
          · simp [hba, hz]
          · by_cases hlt : b < k
            · have : cellsRead rest b = 0 :=
                cellsRead_eq_zero_of_lt fun c hc => lt_trans hlt (hk c hc)
              simp [cellsRead, hba, hlt, this]
            · simp [cellsRead, hba, hlt]
        · simp only [hv, if_false]
          by_cases hba : b = k
          · simp [cellsRead, hba]
          · simp [cellsRead, hba]
      · have hih := ih hr
        simp only [cellsRead, hih]
        by_cases hba : b = a
        · subst hba; simp [*]
        · simp [hba]

/-- Two canonical lists that read the same at every address are equal. -/
theorem cells_ext {l l' : List Host.Cell} (hs : CellsSorted l) (hs' : CellsSorted l')
    (hn : CellsNonzero l) (hn' : CellsNonzero l') (h : ∀ a, cellsRead l a = cellsRead l' a) :
    l = l' := by
  induction l generalizing l' with
  | nil =>
    cases l' with
    | nil => rfl
    | cons d r =>
      have := h d.1
      simp [cellsRead] at this
      exact absurd this.symm (hn' d (by simp))
  | cons c r ih =>
    cases l' with
    | nil =>
      have := h c.1
      simp [cellsRead] at this
      exact absurd this (hn c (by simp))
    | cons d r' =>
      obtain ⟨hk, hr⟩ := List.pairwise_cons.1 hs
      obtain ⟨hk', hr'⟩ := List.pairwise_cons.1 hs'
      have hcn := hn c (by simp)
      have hdn := hn' d (by simp)
      obtain ⟨k, b⟩ := c
      obtain ⟨k', b'⟩ := d
      have hkk : k = k' := by
        have h1 := h k
        have h2 := h k'
        simp only [cellsRead] at h1 h2
        rcases lt_trichotomy k k' with hlt | heq | hgt
        · simp [hlt] at h1; exact absurd h1 hcn
        · exact heq
        · simp [hgt] at h2; exact absurd h2.symm hdn
      subst hkk
      have hbb : b = b' := by simpa [cellsRead] using h k
      subst hbb
      congr 1
      refine ih hr hr' (fun x hx => hn x (by simp [hx])) (fun x hx => hn' x (by simp [hx])) fun a => ?_
      by_cases hak : a ≤ k
      · rw [cellsRead_eq_zero_of_lt fun x hx => lt_of_le_of_lt hak (hk x hx),
          cellsRead_eq_zero_of_lt fun x hx => lt_of_le_of_lt hak (hk' x hx)]
      · have := h a
        have h1 : ¬ a < k := by omega
        have h2 : ¬ a = k := by omega
        simpa [cellsRead, h1, h2] using this

/-! ### Memory -/

theorem Memory.wf.sorted {m : Memory} (h : m.wf) : CellsSorted m.cells := h.2.1

@[simp] theorem Memory.setByte_size (m : Memory) (a : Nat) (v : Byte) :
    (m.setByte a v).size = m.size := rfl

theorem Memory.byte_setByte {m : Memory} (hs : CellsSorted m.cells) (a b : Nat) (v : Byte) :
    (m.setByte a v).byte b = if b = a then v else m.byte b :=
  cellsRead_cellsWrite a b v hs

/-- A byte write inside the memory keeps the canonical form. -/
theorem Memory.setByte_wf {m : Memory} (h : m.wf) {a : Nat} (ha : a < m.size) (v : Byte) :
    (m.setByte a v).wf := by
  refine ⟨h.1, cellsWrite_sorted a v h.2.1, fun c hc => ?_⟩
  rcases mem_cellsWrite hc with hc | ⟨rfl, hv⟩
  · exact h.2.2 c hc
  · exact ⟨hv, ha⟩

@[simp] theorem Memory.setBytes_size (m : Memory) (a : Nat) (vs : List Byte) :
    (m.setBytes a vs).size = m.size := by
  induction vs generalizing m a with
  | nil => rfl
  | cons v vs ih => simp [Memory.setBytes, ih]

theorem Memory.setBytes_sorted {m : Memory} (hs : CellsSorted m.cells) (a : Nat) (vs : List Byte) :
    CellsSorted (m.setBytes a vs).cells := by
  induction vs generalizing m a with
  | nil => exact hs
  | cons v vs ih => exact ih (cellsWrite_sorted a v hs) (a + 1)

/-- Writing consecutive bytes inside the memory keeps the canonical form. -/
theorem Memory.setBytes_wf {m : Memory} (h : m.wf) {a : Nat} {vs : List Byte}
    (ha : a + vs.length ≤ m.size) : (m.setBytes a vs).wf := by
  induction vs generalizing m a with
  | nil => exact h
  | cons v vs ih =>
    simp only [List.length_cons] at ha
    exact ih (Memory.setByte_wf h (by omega) v) (by simp; omega)

/-- Consecutive bytes after they are written: the byte of the list inside the span, the old one outside. -/
theorem Memory.byte_setBytes {m : Memory} (hs : CellsSorted m.cells) (a b : Nat) (vs : List Byte) :
    (m.setBytes a vs).byte b =
      if h : a ≤ b ∧ b < a + vs.length then vs[b - a]'(by omega) else m.byte b := by
  induction vs generalizing m a with
  | nil => simp [Memory.setBytes]
  | cons v vs ih =>
    have hs' : CellsSorted (m.setByte a v).cells := cellsWrite_sorted a v hs
    simp only [Memory.setBytes, ih hs', Memory.byte_setByte hs, List.length_cons]
    rcases lt_trichotomy b a with hlt | rfl | hgt
    · have h1 : ¬ a ≤ b := by omega
      have h2 : ¬ a + 1 ≤ b := by omega
      have h3 : b ≠ a := by omega
      simp [h1, h2, h3]
    · simp
    · by_cases hb : b < a + 1 + vs.length
      · have h1 : a + 1 ≤ b ∧ b < a + 1 + vs.length := ⟨by omega, hb⟩
        have h2 : a ≤ b ∧ b < a + (vs.length + 1) := ⟨by omega, by omega⟩
        have h3 : b - a = (b - (a + 1)) + 1 := by omega
        simp [h1, h2, h3]
      · have h2 : ¬ b < a + (vs.length + 1) := by omega
        have h3 : b ≠ a := by omega
        simp [hb, h2, h3]

/-- Canonical memories with the same bytes are the same data. -/
theorem Memory.ext_of_byte {m m' : Memory} (h : m.wf) (h' : m'.wf) (hsz : m.size = m'.size)
    (hb : ∀ a, m.byte a = m'.byte a) : m = m' := by
  obtain ⟨n, l⟩ := m
  obtain ⟨n', l'⟩ := m'
  simp only at hsz
  subst hsz
  congr 1
  exact cells_ext h.2.1 h'.2.1 (fun c hc => (h.2.2 c hc).1) (fun c hc => (h'.2.2 c hc).1) hb

/-- Outside the memory every byte reads 0. -/
theorem Memory.byte_eq_zero_of_size_le {m : Memory} (h : m.wf) {a : Nat} (ha : m.size ≤ a) :
    m.byte a = 0 := by
  have hlt : ∀ c ∈ m.cells, c.1 < m.size := fun c hc => (h.2.2 c hc).2
  unfold Memory.byte
  generalize m.cells = l at hlt
  induction l with
  | nil => rfl
  | cons c r ih =>
    have h1 := hlt c (by simp)
    have h2 : ¬ a < c.1 := by omega
    have h3 : ¬ a = c.1 := by omega
    simp [cellsRead, h2, h3, ih fun d hd => hlt d (by simp [hd])]

@[simp] theorem Memory.zeroed_byte (n a : Nat) : (Memory.zeroed n).byte a = 0 := rfl

theorem Memory.zeroed_wf {n : Nat} (h : MemSizeLegal n) : (Memory.zeroed n).wf :=
  ⟨h, by simp [Memory.zeroed], by simp [Memory.zeroed]⟩

/-! ### Words -/

@[simp] theorem bytesOfWord_length (v : Word) : (bytesOfWord v).length = 4 := rfl

/-- Big-endian disassembly and assembly are inverse. -/
@[simp] theorem wordOfBytes_bytesOfWord (v : Word) :
    wordOfBytes (v.extractLsb' 24 8) (v.extractLsb' 16 8) (v.extractLsb' 8 8) (v.extractLsb' 0 8) = v := by
  apply BitVec.eq_of_getLsbD_eq
  intro i hi
  simp only [wordOfBytes, BitVec.getLsbD_append, BitVec.getLsbD_extractLsb']
  split
  · simp_all
  · split
    · have : 8 + (i - 8) = i := by omega
      simp_all
    · split
      · have : 16 + (i - 8 - 8) = i := by omega
        simp_all
      · have : 24 + (i - 8 - 8 - 8) = i := by omega
        have h8 : i - 8 - 8 - 8 < 8 := by omega
        simp_all

theorem Memory.wordAt_setBytes {m : Memory} (hs : CellsSorted m.cells) (a : Nat) (v : Word) :
    (m.setBytes a (bytesOfWord v)).wordAt a = v := by
  simp [Memory.wordAt, Memory.byte_setBytes hs, bytesOfWord]

theorem Memory.load_eq_some {m : Memory} {a w : Word} :
    m.load a = some w ↔ m.InBounds a ∧ m.wordAt a.toNat = w := by
  unfold Memory.load
  split <;> simp_all

theorem Memory.load_eq_none {m : Memory} {a : Word} : m.load a = none ↔ ¬ m.InBounds a := by
  unfold Memory.load
  split <;> simp_all

theorem Memory.store_eq_some {m m' : Memory} {a v : Word} :
    m.store a v = some m' ↔ m.InBounds a ∧ m.setBytes a.toNat (bytesOfWord v) = m' := by
  unfold Memory.store
  split <;> simp_all

theorem Memory.store_eq_none {m : Memory} {a v : Word} : m.store a v = none ↔ ¬ m.InBounds a := by
  unfold Memory.store
  split <;> simp_all

/-- Everything a checked store does. -/
theorem Memory.store_spec {m m' : Memory} (hw : m.wf) {a v : Word} (h : m.store a v = some m') :
    m'.wf ∧ m'.size = m.size ∧ m'.load a = some v ∧
      ∀ b, ¬ (a.toNat ≤ b ∧ b < a.toNat + 4) → m'.byte b = m.byte b := by
  obtain ⟨hin, rfl⟩ := Memory.store_eq_some.1 h
  refine ⟨Memory.setBytes_wf hw (by simp; omega), by simp, ?_, fun b hb => ?_⟩
  · exact Memory.load_eq_some.2 ⟨by simpa using hin, Memory.wordAt_setBytes hw.sorted _ _⟩
  · rw [Memory.byte_setBytes hw.sorted, dif_neg (by simpa using hb)]

/-- A placed instruction is what the next fetch reads, and the machine is Running. -/
theorem State.fetch_placeWord {s : State} (hs : CellsSorted s.mem.cells) (w : Word) :
    (s.placeWord w).run = .running ∧ (s.placeWord w).fetch = some w := by
  unfold State.placeWord
  split
  · rename_i h
    exact ⟨rfl, Memory.load_eq_some.2 ⟨by simpa using h, Memory.wordAt_setBytes hs _ _⟩⟩
  · refine ⟨rfl, Memory.load_eq_some.2 ⟨?_, Memory.wordAt_setBytes hs _ _⟩⟩
    simp [Memory.InBounds]

end Sys2Proof.Machine
end

