-- ==== Sys2Proof/Laws/Engine.lean ====
section
/-! SUPPORT. What a launch answers. -/

namespace Sys2Proof.Machine

/-- A launch with a legal size and a fitting image. -/
theorem launch_eq {size : Nat} {image : List Byte} (h : MemSizeLegal size)
    (hi : ImageFits image size) :
    launch size image =
      .next { State.initial size with mem := (Memory.zeroed size).setBytes 0 image } := by
  rw [launch, initialise, if_pos h]
  exact if_pos hi

/-- Every launch that gives a state had a legal size and a fitting image. -/
theorem launch_next {size : Nat} {image : List Byte} {s : State} (h : launch size image = .next s) :
    MemSizeLegal size ∧ ImageFits image size ∧
      s = { State.initial size with mem := (Memory.zeroed size).setBytes 0 image } := by
  by_cases h1 : MemSizeLegal size
  · by_cases h2 : ImageFits image size
    · rw [launch_eq h1 h2] at h
      cases h
      exact ⟨h1, h2, rfl⟩
    · rw [launch, initialise, if_pos h1] at h
      exact absurd (h.symm.trans (if_neg h2)) (by simp)
  · rw [launch, initialise, if_neg h1] at h
    cases h

end Sys2Proof.Machine
end

