-- ==== Sys2Proof/Laws/PerInstr.lean ====
section
/-! SUPPORT. A statement made per instruction: the fixed fields of its encoded word. -/

namespace Sys2Proof.Laws.EncodedRow

/-- The encoded word carries the fixed fields of the instruction's row (R55, R56). -/
def Statement (i : Instr) : Prop :=
  ∀ p : OpcodeMap,
    let f := extractFields (encodeWith p i)
    match i with
    | .add _ _ _ => f.opcode = opRtype ∧ f.funct = p.fnAdd
    | .sub _ _ _ => f.opcode = opRtype ∧ f.funct = p.fnSub
    | .slt _ _ _ => f.opcode = opRtype ∧ f.funct = p.fnSlt
    | .addi _ _ _ => f.opcode = p.opAddi
    | .lw _ _ _ => f.opcode = p.opLw
    | .sw _ _ _ => f.opcode = p.opSw
    | .beq _ _ _ => f.opcode = p.opBeq
    | .j _ => f.opcode = p.opJ
    | .halt => f.opcode = p.opHalt

theorem add (rd rs rt : RegIndex) : Statement (.add rd rs rt) := fun p =>
  ⟨(extractFields_rFormat rs rt rd p.fnAdd).1, (extractFields_rFormat rs rt rd p.fnAdd).2.2.2.2⟩

theorem sub (rd rs rt : RegIndex) : Statement (.sub rd rs rt) := fun p =>
  ⟨(extractFields_rFormat rs rt rd p.fnSub).1, (extractFields_rFormat rs rt rd p.fnSub).2.2.2.2⟩

theorem slt (rd rs rt : RegIndex) : Statement (.slt rd rs rt) := fun p =>
  ⟨(extractFields_rFormat rs rt rd p.fnSlt).1, (extractFields_rFormat rs rt rd p.fnSlt).2.2.2.2⟩

theorem addi (rt rs : RegIndex) (imm : BitVec 16) : Statement (.addi rt rs imm) := fun p =>
  (extractFields_iFormat p.opAddi rs rt imm).1

theorem lw (rt rs : RegIndex) (imm : BitVec 16) : Statement (.lw rt rs imm) := fun p =>
  (extractFields_iFormat p.opLw rs rt imm).1

theorem sw (rt rs : RegIndex) (imm : BitVec 16) : Statement (.sw rt rs imm) := fun p =>
  (extractFields_iFormat p.opSw rs rt imm).1

theorem beq (rs rt : RegIndex) (imm : BitVec 16) : Statement (.beq rs rt imm) := fun p =>
  (extractFields_iFormat p.opBeq rs rt imm).1

theorem j (addr : BitVec 26) : Statement (.j addr) := fun p => (extractFields_jFormat p.opJ addr).1

theorem halt : Statement .halt := fun p => (extractFields_jFormat p.opHalt 0).1

end Sys2Proof.Laws.EncodedRow
end

