-- ==== Sys2Proof/Laws/Step.lean ====
section
/-! SUPPORT. What each handler does, and everything a handler and a Step can do. -/

namespace Sys2Proof.Machine

variable {s t : State}

/-! ### The handlers -/

theorem exec_add (rd rs rt : RegIndex) (s : State) :
    exec (.add rd rs rt) s = .next (s.writeReg rd (s.reg rs + s.reg rt)) := rfl

theorem exec_sub (rd rs rt : RegIndex) (s : State) :
    exec (.sub rd rs rt) s = .next (s.writeReg rd (s.reg rs - s.reg rt)) := rfl

theorem exec_slt (rd rs rt : RegIndex) (s : State) :
    exec (.slt rd rs rt) s = .next (s.writeReg rd (sltResult (s.reg rs) (s.reg rt))) := rfl

theorem exec_addi (rt rs : RegIndex) (imm : BitVec 16) (s : State) :
    exec (.addi rt rs imm) s = .next (s.writeReg rt (s.reg rs + sext32 imm)) := rfl

theorem exec_lw_inBounds (rt rs : RegIndex) (imm : BitVec 16)
    (h : s.mem.InBounds (s.effectiveAddress rs imm)) :
    exec (.lw rt rs imm) s =
      .next (s.writeReg rt (s.mem.wordAt (s.effectiveAddress rs imm).toNat)) := by
  simp [exec, execLw, Memory.load_eq_some.2 ⟨h, rfl⟩, retire]

theorem exec_lw_outOfBounds (rt rs : RegIndex) (imm : BitVec 16)
    (h : ¬ s.mem.InBounds (s.effectiveAddress rs imm)) :
    exec (.lw rt rs imm) s = .next (s.finish .memoryOutOfBounds) := by
  simp [exec, execLw, Memory.load_eq_none.2 h, raise]

theorem exec_sw_inBounds (rt rs : RegIndex) (imm : BitVec 16)
    (h : s.mem.InBounds (s.effectiveAddress rs imm)) :
    exec (.sw rt rs imm) s =
      .next { s with mem := s.mem.setBytes (s.effectiveAddress rs imm).toNat (bytesOfWord (s.reg rt)) } := by
  simp [exec, execSw, Memory.store_eq_some.2 ⟨h, rfl⟩, retire]

theorem exec_sw_outOfBounds (rt rs : RegIndex) (imm : BitVec 16)
    (h : ¬ s.mem.InBounds (s.effectiveAddress rs imm)) :
    exec (.sw rt rs imm) s = .next (s.finish .memoryOutOfBounds) := by
  simp [exec, execSw, Memory.store_eq_none.2 h, raise]

theorem exec_beq (rs rt : RegIndex) (imm : BitVec 16) (s : State) :
    exec (.beq rs rt imm) s =
      .next (if s.reg rs = s.reg rt then s.setPc (branchTarget s.pc imm) else s) := by
  simp only [exec, execBeq, BranchTaken]
  split <;> rfl

theorem exec_j (addr : BitVec 26) (s : State) :
    exec (.j addr) s = .next (s.setPc (jumpTarget s.pc addr)) := rfl

theorem exec_halt (s : State) : exec .halt s = .next (s.finish .haltRequested) := rfl

/-! ### Everything a handler can do -/

/-- The kinds of effect a handler can have (R69). -/
inductive Effect (s : State) : State → Prop where
  | register (r : RegIndex) (v : Word) : Effect s (s.writeReg r v)
  | store (a v : Word) : s.mem.InBounds a →
      Effect s { s with mem := s.mem.setBytes a.toNat (bytesOfWord v) }
  | branch (imm : BitVec 16) : Effect s (s.setPc (branchTarget s.pc imm))
  | jump (addr : BitVec 26) : Effect s (s.setPc (jumpTarget s.pc addr))
  | none : Effect s s
  | halt : Effect s (s.finish .haltRequested)
  | dataFault : Effect s (s.finish .memoryOutOfBounds)

/-- A handler always ends in a next state, and with one of these effects. -/
theorem exec_effect (i : Instr) (s : State) : ∃ t, exec i s = .next t ∧ Effect s t := by
  cases i with
  | add rd rs rt => exact ⟨_, exec_add .., .register ..⟩
  | sub rd rs rt => exact ⟨_, exec_sub .., .register ..⟩
  | slt rd rs rt => exact ⟨_, exec_slt .., .register ..⟩
  | addi rt rs imm => exact ⟨_, exec_addi .., .register ..⟩
  | lw rt rs imm =>
    by_cases h : s.mem.InBounds (s.effectiveAddress rs imm)
    · exact ⟨_, exec_lw_inBounds rt rs imm h, .register ..⟩
    · exact ⟨_, exec_lw_outOfBounds rt rs imm h, .dataFault⟩
  | sw rt rs imm =>
    by_cases h : s.mem.InBounds (s.effectiveAddress rs imm)
    · exact ⟨_, exec_sw_inBounds rt rs imm h, .store _ _ h⟩
    · exact ⟨_, exec_sw_outOfBounds rt rs imm h, .dataFault⟩
  | beq rs rt imm =>
    refine ⟨_, exec_beq rs rt imm s, ?_⟩
    split
    · exact .branch imm
    · exact .none
  | j addr => exact ⟨_, exec_j .., .jump addr⟩
  | halt => exact ⟨_, exec_halt s, .halt⟩

/-! ### The Step -/

/-- Everything a Step that answers a next state did (R61). -/
theorem stepWith_next {p : OpcodeMap} (h : stepWith p s = .next t) :
    s.run = .running ∧
      ((s.fetch = none ∧ t = s.finish .memoryOutOfBounds) ∨
       ∃ w, s.fetch = some w ∧
         ((∃ e, decodeWordWith p w = .error e ∧ t = s.advancePc.finish .invalidOpcode) ∨
          ∃ i, decodeWordWith p w = .ok i ∧ exec i s.advancePc = .next t)) := by
  unfold stepWith at h
  split at h
  · cases h
  · rename_i hrun
    refine ⟨hrun, ?_⟩
    split at h
    · rename_i hf
      simp only [raise, Host.Outcome.next.injEq] at h
      exact .inl ⟨hf, h.symm⟩
    · rename_i w hf
      refine .inr ⟨w, hf, ?_⟩
      unfold executeWord at h
      split at h
      · rename_i i hd
        exact .inr ⟨i, hd, h⟩
      · rename_i e hd
        simp only [raise, Host.Outcome.next.injEq] at h
        exact .inl ⟨e, hd, h.symm⟩

theorem stepWith_stopped {p : OpcodeMap} {st : Status} (h : s.run = .stopped st) :
    stepWith p s = .fault (.stopped st) := by
  simp [stepWith, h]

theorem stepWith_fetchFault {p : OpcodeMap} (hr : s.run = .running) (hf : s.fetch = none) :
    stepWith p s = .next (s.finish .memoryOutOfBounds) := by
  simp [stepWith, hr, hf, raise]

theorem stepWith_miss {p : OpcodeMap} {w : Word} {e : Reject} (hr : s.run = .running)
    (hf : s.fetch = some w) (hd : decodeWordWith p w = .error e) :
    stepWith p s = .next (s.advancePc.finish .invalidOpcode) := by
  simp [stepWith, hr, hf, executeWord, hd, raise]

theorem stepWith_exec {p : OpcodeMap} {w : Word} {i : Instr} (hr : s.run = .running)
    (hf : s.fetch = some w) (hd : decodeWordWith p w = .ok i) :
    stepWith p s = exec i s.advancePc := by
  simp [stepWith, hr, hf, executeWord, hd]

theorem State.fetch_eq_some {w : Word} :
    s.fetch = some w ↔ s.mem.InBounds s.pc ∧ s.mem.wordAt s.pc.toNat = w := Memory.load_eq_some

theorem State.fetch_eq_none : s.fetch = none ↔ ¬ s.mem.InBounds s.pc := Memory.load_eq_none

end Sys2Proof.Machine
end

