-- ==== Sys2Proof/Tests/Slice0.lean ====
section
/-! SUPPORT. Tests. Every expected value comes from spec/95_test_vectors.md (its ids S, V and P), or from
the rule named; then one witness for the hypotheses of each statement. -/

namespace Sys2Proof.Tests

open Sys2Proof Sys2Proof.Machine Sys2Proof.Claims

/-! ### Small states -/

/-- The state an outcome goes on to. -/
def next? : Host.Outcome State Fault Refusal → Option State
  | .next s => some s
  | .fault _ => none
  | .refused _ => none

/-- A running machine with a memory size, a counter, registers and memory bytes. -/
def tiny (size : Nat) (pc : Word) (regs : List (RegIndex × Word)) (mem : List (Nat × List Byte)) : State :=
  let s : State := { State.initial size with pc := pc }
  let s := regs.foldl (fun s r => s.writeReg r.1 r.2) s
  { s with mem := mem.foldl (fun m c => m.setBytes c.1 c.2) s.mem }

/-- The vectors' arithmetic setting: MEM_SIZE 0x1000, the word at 0x100. -/
def at100 (w : Word) (regs : List (RegIndex × Word)) : State :=
  tiny 0x1000 0x100 regs [(0x100, bytesOfWord w)]

/-- The vectors' load and store setting: MEM_SIZE 0x40, the word at 0. -/
def at0 (w : Word) (regs : List (RegIndex × Word)) (mem : List (Nat × List Byte)) : State :=
  tiny 0x40 0 regs ((0, bytesOfWord w) :: mem)

/-- A register, the counter and the run state after one Step. -/
def after (s : State) (r : RegIndex) : Option (Word × Word × RunState) :=
  (next? (step s)).map fun t => (t.reg r, t.pc, t.run)

/-- Bytes of memory, the counter and the run state after one Step. -/
def bytesAfter (s : State) (a n : Nat) : Option (List Byte × Word × RunState) :=
  (next? (step s)).map fun t => ((List.range n).map fun k => t.mem.byte (a + k), t.pc, t.run)

/-- A decoded word, for comparison. -/
def decoded (w : Word) : Option Instr := (decodeWord w).toOption

/-! ### Well-formedness: each check refuses an ill-formed term -/

theorem test_opcodes_wf : opcodes.WF := by decide
theorem test_wf_primary_twice : ¬ ({ opcodes with opJ := 0x04 } : OpcodeMap).WF := by decide
theorem test_wf_primary_rtype : ¬ ({ opcodes with opHalt := 0 } : OpcodeMap).WF := by decide
theorem test_wf_funct_twice : ¬ ({ opcodes with fnSub := 0x20 } : OpcodeMap).WF := by decide
theorem test_wf_size_zero : ¬ MemSizeLegal 0 := by decide
theorem test_wf_size_above : ¬ MemSizeLegal (2 ^ 32 + 1) := by decide
theorem test_wf_image_long : ¬ ImageFits [1, 2, 3] 2 := by decide
theorem test_wf_asm_register : (Asm.add 32 1 2).wf = false := by decide
theorem test_wf_asm_immediate_high : (Asm.addi 1 0 32768).wf = false := by decide
theorem test_wf_asm_immediate_low : (Asm.lw 1 (-32769) 0).wf = false := by decide
theorem test_wf_asm_offset : (Asm.beq 0 0 40000).wf = false := by decide
theorem test_wf_asm_jump : (Asm.j (2 ^ 26)).wf = false := by decide
theorem test_wf_memory_zero_byte : ¬ ({ size := 4, cells := [(0, 0)] } : Memory).wf := by decide
theorem test_wf_memory_order : ¬ ({ size := 4, cells := [(2, 1), (1, 1)] } : Memory).wf := by decide
theorem test_wf_memory_outside : ¬ ({ size := 4, cells := [(4, 1)] } : Memory).wf := by decide

/-! ### Decoding: words written out from the encodings of R55 and R56 -/

/-- V-D3, `shamt` 31 is ignored: 000000 00001 00010 00011 11111 100000 -/
theorem test_decode_add : decoded 0b00000000001000100001111111100000#32 = some (.add 3 1 2) := by decide
/-- 000000 00001 00010 00011 00000 100010 -/
theorem test_decode_sub : decoded 0b00000000001000100001100000100010#32 = some (.sub 3 1 2) := by decide
/-- V-D10: 000000 00001 00010 00011 00000 101010 -/
theorem test_decode_slt : decoded 0b00000000001000100001100000101010#32 = some (.slt 3 1 2) := by decide
/-- S1, the source's word: 001000 00000 00001 0000000000000101 -/
theorem test_decode_addi : decoded 0b00100000000000010000000000000101#32 = some (.addi 1 0 5) := by decide
/-- V-D5: 100011 00001 00010 1111111111111100 -/
theorem test_decode_lw : decoded 0b10001100001000101111111111111100#32 = some (.lw 2 1 0xFFFC) := by decide
/-- V-D6: 101011 00010 00001 0000000000000100 -/
theorem test_decode_sw : decoded 0b10101100010000010000000000000100#32 = some (.sw 1 2 4) := by decide
/-- V-B1: 000100 00001 00010 0000000000000011 -/
theorem test_decode_beq : decoded 0b00010000001000100000000000000011#32 = some (.beq 1 2 3) := by decide
/-- V-D8: 000010 and 26 ones -/
theorem test_decode_j : decoded 0b00001011111111111111111111111111#32 = some (.j 0x3FFFFFF) := by decide
/-- S1, V-D2, the source's halt word with bits 25:24 set: 001111 11 and 24 zeros -/
theorem test_decode_halt : decoded 0b00111111000000000000000000000000#32 = some .halt := by decide

/-- V-I1, V-I3, V-I6: secondary misses, by name -/
theorem test_reject_funct :
    decodeWord 0x00000000 = .error (.unregisteredFunct 0x00) ∧
    decodeWord 0x00221821 = .error (.unregisteredFunct 0x21) ∧
    decodeWord 0x00000008 = .error (.unregisteredFunct 0x08) := ⟨rfl, rfl, rfl⟩
/-- V-I2, V-I4, V-I5, V-I7, V-I8: primary misses, by name -/
theorem test_reject_opcode :
    decodeWord 0xFFFFFFFF = .error (.unregisteredOpcode 0x3F) ∧
    decodeWord 0x0C000000 = .error (.unregisteredOpcode 0x03) ∧
    decodeWord 0x7C000000 = .error (.unregisteredOpcode 0x1F) ∧
    decodeWord 0x04000000 = .error (.unregisteredOpcode 0x01) ∧
    decodeWord 0x3400FFFF = .error (.unregisteredOpcode 0x0D) := ⟨rfl, rfl, rfl, rfl, rfl⟩
theorem test_reject_truncated : decodeBytes opcodes [0x20, 0x01, 0x00] = .error .truncated := rfl

/-- S1: the source's eight bytes are `addi $1,$0,5` and `halt`, big-endian. -/
theorem test_decode_source_bytes :
    decodeBytes opcodes [0x20, 0x01, 0x00, 0x05, 0x3F, 0x00, 0x00, 0x00]
      = .ok (.addi 1 0 5, [0x3F, 0x00, 0x00, 0x00]) := rfl

/-- Encodings printed in the instruction files. -/
theorem test_encode_words :
    encode (.add 3 1 2) = 0x00221820 ∧ encode (.sub 3 1 2) = 0x00221822 ∧
    encode (.slt 3 1 2) = 0x0022182A ∧ encode (.addi 2 1 0xFFFF) = 0x2022FFFF ∧
    encode (.lw 2 1 4) = 0x8C220004 ∧ encode (.sw 1 2 4) = 0xAC410004 ∧
    encode (.beq 1 2 3) = 0x10220003 ∧ encode (.j 2) = 0x08000002 ∧ encode .halt = 0x3C000000 := by
  decide

/-- R59 and program P3: lines of assembly and their words. -/
theorem test_assemble_words :
    (assemble (.addi 1 0 (-2))).map encode = some 0x2001FFFE ∧
    (assemble (.sw 6 (-4) 2)).map encode = some 0xAC46FFFC ∧
    (assemble (.beq 0 0 (-1))).map encode = some 0x1000FFFF := by decide

/-! ### One Step of each instruction -/

/-- V-A3: signed overflow wraps, no trap -/
theorem test_add_overflow :
    after (at100 0x00221820 [(1, 0x7FFFFFFF), (2, 1)]) 3 = some (0x80000000, 0x104, .running) := by decide
/-- V-A4: a write to register 0 is discarded -/
theorem test_add_register0 :
    after (at100 0x00220020 [(1, 5), (2, 7)]) 0 = some (0, 0x104, .running) := by decide
/-- V-A7: the order of the operands -/
theorem test_sub_borrow :
    after (at100 0x00221822 [(1, 5), (2, 7)]) 3 = some (0xFFFFFFFE, 0x104, .running) := by decide
/-- V-A9: one register three times -/
theorem test_sub_same :
    after (at100 0x00210822 [(1, 0x1234)]) 1 = some (0, 0x104, .running) := by decide
/-- V-A13: most negative below most positive -/
theorem test_slt_signed :
    after (at100 0x0022182A [(1, 0x80000000), (2, 0x7FFFFFFF)]) 3 = some (1, 0x104, .running) := by decide
/-- V-A12: the result 0 overwrites -/
theorem test_slt_false :
    after (at100 0x0022182A [(1, 1), (2, 0xFFFFFFFF), (3, 9)]) 3 = some (0, 0x104, .running) := by decide
/-- V-A23: sign extension and wrap -/
theorem test_addi_wrap :
    after (at100 0x20218000 [(1, 0x80000000)]) 1 = some (0x7FFF8000, 0x104, .running) := by decide
/-- V-A21: a write to register 0 is discarded -/
theorem test_addi_register0 :
    after (at100 0x20200007 [(1, 1)]) 0 = some (0, 0x104, .running) := by decide
/-- V-M6: a misaligned big-endian load -/
theorem test_lw_misaligned :
    after (at0 0x8C220001 [(1, 0x10)] [(0x10, [0xAA, 0xBB, 0xCC, 0xDD, 0xEE])]) 2
      = some (0xBBCCDDEE, 4, .running) := by decide
/-- V-M8: a discarded load still stops the machine -/
theorem test_lw_register0_fault :
    after (at0 0x8C200000 [(1, 0x40)] []) 0 = some (0, 4, .stopped .memoryOutOfBounds) := by decide
/-- V-M16: a misaligned store and its neighbours -/
theorem test_sw_misaligned :
    bytesAfter (at0 0xAC220001 [(1, 0x10), (2, 0xA1B2C3D4)] []) 0x10 6
      = some ([0, 0xA1, 0xB2, 0xC3, 0xD4, 0], 4, .running) := by decide
/-- V-M13: all or nothing at the end of memory -/
theorem test_sw_end_of_memory :
    bytesAfter (at0 0xAC220008 [(1, 0x35), (2, 0x11223344)] []) 0x3D 3
      = some ([0, 0, 0], 4, .stopped .memoryOutOfBounds) := by decide
/-- V-B5: a backward branch wraps modulo 2^32 -/
theorem test_beq_backward :
    after (at100 0x10228000 [(1, 7), (2, 7)]) 0 = some (0, 0xFFFE0104, .running) := by decide
/-- V-B2: not taken -/
theorem test_beq_not_taken :
    after (at100 0x10220003 [(1, 7), (2, 8)]) 0 = some (0, 0x104, .running) := by decide
/-- V-J6: the region is that of the advanced counter -/
theorem test_j_region :
    after (tiny (2 ^ 32) 0x0FFFFFFC [] [(0x0FFFFFFC, [0x08, 0, 0, 0])]) 0
      = some (0, 0x10000000, .running) := by decide
/-- V-J3: the largest field -/
theorem test_j_largest :
    after (at100 0x0BFFFFFF []) 0 = some (0, 0x0FFFFFFC, .running) := by decide
/-- V-H3: all ignored bits set -/
theorem test_halt :
    after (at100 0x3FFFFFFF []) 0 = some (0, 0x104, .stopped .success) := by decide

/-! ### Stops, fetch, reset, host -/

/-- V-I1: the all-zero word -/
theorem test_miss :
    after (at100 0x00000000 [(1, 5)]) 1 = some (5, 0x104, .stopped .invalidOpcode) := by decide
/-- V-F5: no wrap in the fetch check, the counter not advanced -/
theorem test_fetch_top :
    after (tiny 16 0xFFFFFFFC [] []) 0 = some (0, 0xFFFFFFFC, .stopped .memoryOutOfBounds) := by decide
/-- V-F6: the last word of a 2^32-byte memory is fetched and the counter wraps -/
theorem test_fetch_wrap :
    after (tiny (2 ^ 32) 0xFFFFFFFC [] [(0xFFFFFFFC, [0x20, 0, 0, 0])]) 0 = some (0, 0, .running) := by decide
/-- R74: no Step after a stop -/
theorem test_stopped : step { tiny 16 0 [] [] with run := .stopped .success } = .fault (.stopped .success) := rfl
/-- R29 -/
theorem test_reset :
    State.reset.pc = 0 ∧ State.reset.run = .running ∧ (List.finRange 32).all (State.reset.reg · == 0) := by decide
/-- R106, R109: refused launches -/
theorem test_launch_refused :
    launch 0 [] = .refused .memorySizeIllegal ∧ launch 2 [1, 2, 3] = .refused .imageTooLong := by
  constructor <;> rfl
/-- R109: image bytes from offset 0, zeros after them -/
theorem test_launch_image :
    (next? (launch 6 [0x20, 0x01])).map (fun s => (List.range 4).map s.mem.byte) = some [0x20, 0x01, 0, 0] := by
  decide
/-- The host's table word of each format is decoded, and is the first instruction after reset. -/
theorem test_table_word :
    decodeTableWord 32 0x20010005 = some (.addi 1 0 5) ∧
    after (State.reset.withFetchWord 32 0x20010005) 1 = some (5, 4, .running) := by decide

/-! ### Witnesses: a state or operands that meet the hypotheses of each statement -/

/-- DecodeOfEncodeIsTheInstruction, TablesHoldExactlyTheNineHandlers: other numbers within R8. -/
theorem witness_opcodes :
    ({ opcodes with opHalt := 0x3F, opJ := 0x0F, fnAdd := 0 } : OpcodeMap).WF := by decide
/-- UnreadBitsSelectTheSameInstruction -/
theorem witness_unread : opcodes.WF ∧ decodeWordWith opcodes 0x00221FE0 = .ok (.add 3 1 2) := by
  exact ⟨by decide, rfl⟩
/-- UnregisteredWordsRaiseInvalidOpcode: a miss in each table. -/
theorem witness_unregistered :
    opcodes.WF ∧ decodeWordWith opcodes 0xFC000000 = .error (.unregisteredOpcode 0x3F) ∧
    decodeWordWith opcodes 0x0000003F = .error (.unregisteredFunct 0x3F) := ⟨by decide, rfl, rfl⟩
/-- AssemblyLinesSetTheirFields: both clauses, at the ends of the ranges. -/
theorem witness_assembly :
    (Asm.addi 31 0 32767).wf = true ∧ (Asm.lw 0 (-32768) 31).wf = true ∧
    (Asm.j (2 ^ 26 - 1)).wf = true ∧ (Asm.addi 31 0 32768).wf = false := by decide
/-- DecodesR and DecodesI clauses of the nine instruction statements. -/
theorem witness_words :
    opcodes.WF ∧ (bits 0x00221820 31 26 = 0 ∧ bits 0x00221820 5 0 = opcodes.fnAdd.toNat) ∧
    bits 0x00221822 5 0 = opcodes.fnSub.toNat ∧ bits 0x0022182A 5 0 = opcodes.fnSlt.toNat ∧
    bits 0x20010005 31 26 = opcodes.opAddi.toNat ∧ bits 0x8C220004 31 26 = opcodes.opLw.toNat ∧
    bits 0xAC410004 31 26 = opcodes.opSw.toNat ∧ bits 0x10220003 31 26 = opcodes.opBeq.toNat ∧
    bits 0x08000002 31 26 = opcodes.opJ.toNat ∧ bits 0x3FFFFFFF 31 26 = opcodes.opHalt.toNat := by
  decide
/-- RegisterZeroIsHardwired, LwLoadsTheWordOrStops, SwStoresTheWordOrStops, MemReadIsBigEndian,
MemWriteIsBigEndianAndWhole: the last address in bounds, the first out of bounds, and a wrap of the address. -/
theorem witness_bounds :
    (at0 0 [(1, 0x3C)] []).mem.wf ∧ eaNat (at0 0 [(1, 0x3C)] []) 1 0 + 3 < 0x40 ∧
    ¬ eaNat (at0 0 [(1, 0x3C)] []) 1 1 + 3 < 0x40 ∧
    (at0 0 [(1, 0x3C)] []).mem.InBounds ((at0 0 [(1, 0x3C)] []).effectiveAddress 1 0) ∧
    ¬ (at0 0 [(1, 0x3C)] []).mem.InBounds ((at0 0 [(1, 0x3C)] []).effectiveAddress 1 1) ∧
    eaNat (at0 0 [(1, 0xFFFFFFF0)] []) 1 0x20 + 3 < 0x40 := by decide
/-- BoundsCheckNeverWraps -/
theorem witness_top :
    MemSizeLegal (2 ^ 32) ∧ 0xFFFFFFFD ≤ (0xFFFFFFFD : Word).toNat ∧ (tiny 3 0 [] []).mem.size < 4 := by decide
/-- HaltStopsWithSuccess: both ends of the range of words. -/
theorem witness_halt_words :
    0x3C000000 ≤ (0x3C000000 : Word).toNat ∧ (0x3FFFFFFF : Word).toNat ≤ 0x3FFFFFFF := by decide
/-- HandlersChangeOnlyWhatTheirRuleNames: its clauses on counter, run state and data fault. -/
theorem witness_frame :
    (at0 0 [(1, 5)] []).mem.wf ∧ destination (.sw 1 0 0) ≠ some 1 ∧
    storeAddress (at0 0 [] []) (.sw 1 0 60) = some 60 ∧ storeAddress (at0 0 [] []) (.sw 1 0 61) = none ∧
    dataAddress (at0 0 [] []) (.lw 1 0 61) = some 61 ∧ ¬ (at0 0 [] []).mem.InBounds 61 := by decide
/-- HandlersReadOnlyTheirSources: two different states that agree in the sources. -/
theorem witness_reads :
    (at0 0 [(1, 5)] []).reg 1 = (at0 0 [(1, 5), (3, 9)] []).reg 1 ∧
    (at0 0 [(1, 5)] []).reg 3 ≠ (at0 0 [(1, 5), (3, 9)] []).reg 3 ∧
    (at0 0 [(1, 5)] []).mem = (at0 0 [(1, 5), (3, 9)] []).mem := by decide
/-- StepRunsTheDecodedInstruction, EncodedInstructionInMemoryRuns: at the last word of memory. -/
theorem witness_step :
    let s := tiny 0x40 0x3C [] [(0x3C, bytesOfWord 0x20010005)]
    s.run = .running ∧ s.pc.toNat + 3 < s.mem.size ∧ (0x20010005 : Word).toNat = bigEndian s.mem s.pc.toNat ∧
    decoded 0x20010005 = some (.addi 1 0 5) ∧
    (List.range 4).map (fun k => s.mem.byte (s.pc.toNat + k)) = encodeBytes opcodes (.addi 1 0 5) := by decide
/-- FetchReadsTheWordOrStops: V-F1, the last word; and V-F3, the tail of a memory whose size is no multiple of 4. -/
theorem witness_fetch_fault :
    (tiny 16 12 [] []).pc.toNat + 3 < (tiny 16 12 [] []).mem.size ∧
    (tiny 6 4 [] []).run = .running ∧ ¬ (tiny 6 4 [] []).pc.toNat + 3 < (tiny 6 4 [] []).mem.size := by decide
/-- DispatchMissStopsAfterTheAdvance -/
theorem witness_miss :
    (at0 0 [] []).run = .running ∧ (at0 0 [] []).fetch = some 0 ∧
    decodeWord 0 = .error (.unregisteredFunct 0) := ⟨by decide, by decide, rfl⟩
/-- StoppedMachineTakesNoStep -/
theorem witness_stopped :
    ({ tiny 4 0 [] [] with run := .stopped .invalidOpcode } : State).run = .stopped .invalidOpcode := rfl
/-- EveryOutcomeLeavesTheTabulatedCounter: each clause. -/
theorem witness_counter :
    (tiny 3 0 [] []).fetch = none ∧ (at0 0 [] []).fetch = some 0 ∧
    (at0 0x1000FFFF [] []).fetch = some 0x1000FFFF ∧ decoded 0x1000FFFF = some (.beq 0 0 0xFFFF) := by decide
/-- StopsHaveExactlyTheirCauses, FailedStepChangesNoRegisterOrByte: a Step with each error. -/
theorem witness_failed :
    ((next? (step (at0 0 [] []))).map (·.run)) = some (.stopped .invalidOpcode) ∧
    ((next? (step (tiny 3 0 [] []))).map (·.run)) = some (.stopped .memoryOutOfBounds) ∧
    ((next? (step (at0 0x3C000000 [] []))).map (·.run)) = some (.stopped .success) := by decide
/-- InBoundsCounterTellsADataFault: a data fault with the counter in bounds after it. -/
theorem witness_data_fault :
    (next? (step (at0 0x8C02FFFF [] []))).map (fun t => (t.run, decide (t.mem.InBounds t.pc)))
      = some (.stopped .memoryOutOfBounds, true) := by decide
/-- SelfBranchNeverEnds -/
theorem witness_self_branch :
    (at100 0x1000FFFF []).run = .running ∧ (at100 0x1000FFFF []).fetch = some 0x1000FFFF := by decide
/-- ObservationIsAPureReadAfterTheStop -/
theorem witness_observe :
    (({ tiny 4 0 [] [] with run := .stopped .success } : State).observe).isSome = true := by decide
/-- LoadAfterStoreGivesTheStoredWord: a store and a load that reach the same last address by
different bases. -/
theorem witness_load_after_store :
    let s := at0 0 [(1, 0x3C), (2, 0x11223344)] []
    s.mem.wf ∧ s.mem.InBounds (s.effectiveAddress 1 0) ∧ (next? (exec (.sw 2 1 0) s)).isSome = true ∧
    (next? (exec (.sw 2 1 0) s)).map (·.effectiveAddress 0 0x3C) = some (s.effectiveAddress 1 0) := by decide
/-- LoadThenStoreRestoresTheMemory -/
theorem witness_load_then_store :
    let s := at0 0 [(1, 0x3C)] [(0x3D, [1, 2])]
    s.mem.wf ∧ (2 : RegIndex) ≠ 0 ∧ (2 : RegIndex) ≠ 1 ∧ s.mem.InBounds (s.effectiveAddress 1 0) := by decide
/-- StoredWordIsFetchedByTheNextStep: the store at 0 writes an `addi` at 4. -/
theorem witness_self_modifying :
    let s := at0 0xAC010004 [(1, 0x20010005)] []
    s.mem.wf ∧ s.fetch = some 0xAC010004 ∧ decoded 0xAC010004 = some (.sw 1 0 4) ∧
    s.mem.InBounds (s.effectiveAddress 0 4) ∧ s.effectiveAddress 0 4 = s.pc + 4 ∧
    (next? (step s)).isSome = true ∧ decoded (s.reg 1) = some (.addi 1 0 5) := by decide
/-- LaunchLeavesTheStatedState, EverySizeFromOneIsLegal, OversizeImageIsRefused: the smallest and the
largest size, an image that fills the memory, and one that is too long. -/
theorem witness_launch :
    MemSizeLegal 1 ∧ MemSizeLegal (2 ^ 32) ∧ ImageFits [7] 1 ∧ ¬ MemSizeLegal 0 ∧
    (next? (launch 3 [])).isSome = true ∧ 1 < [(7 : Byte), 8].length := by decide
/-- EveryStepKeepsTheInvariant: a state that meets it and takes a Step. -/
theorem witness_invariant : (at0 0x20010005 [] []).Inv ∧ (next? (step (at0 0x20010005 [] []))).isSome = true :=
  ⟨⟨by decide, by decide, trivial, by decide⟩, by decide⟩
/-- ReachableStatesMeetTheInvariant: a launched machine after one Step. -/
theorem witness_reachable :
    ∃ s, Reachable 8 [0x20, 0x01, 0x00, 0x05] s ∧ s.reg 1 = 5 :=
  ⟨_, .step (.start rfl) rfl, by decide⟩
/-- RunResultIsFinalAndOneOfThree: an empty memory of four bytes stops in one Step. -/
theorem witness_run :
    (next? (launch 4 [])).map (fun s => (runFor 1 s).result) = some (some .invalidOpcode) := by decide

end Sys2Proof.Tests
end

