-- ==== Sys2Proof/Proofs/Scope.lean ====
section
/-! PROOFS. The notation of 00_scope.md: sign extension over plain numbers (R11). -/

namespace Sys2Proof.Machine

open Sys2Proof.Claims

/-- A set sign bit is copied into the 16 added bits, which are worth 0xFFFF0000 together. -/
theorem toNat_sext32_eq_add_msb (v : BitVec 16) :
    (sext32 v).toNat = v.toNat + if v.msb then 0xFFFF0000 else 0 := by
  rw [sext32, BitVec.toNat_signExtend, BitVec.toNat_setWidth_of_le (by decide)]

theorem toNat_sext32 (v : BitVec 16) : (sext32 v).toNat = sextNat v := by
  have hmsb : v.msb = decide (0x8000 ≤ v.toNat) := BitVec.msb_eq_decide v
  rw [toNat_sext32_eq_add_msb, hmsb, sextNat]
  by_cases hlow : v.toNat < 0x8000
  case pos => simp [hlow]
  case neg => simp [hlow, Nat.le_of_not_lt hlow]

/-- Settles O10, by the two values of the sign bit. -/
theorem signExtensionCopiesTheSignBit : Obligations.SignExtensionCopiesTheSignBit :=
  toNat_sext32

end Sys2Proof.Machine
end

/-! PROOFS. The state of 10_state.md: register 0 (R16, R17), the counter (R20, R21), the run state
(R22), memory (R26) and reset (R29). -/

namespace Sys2Proof.Machine

open Sys2Proof.Claims

variable {s t : State}

/-! ### The program counter over plain numbers -/

theorem toNat_add_four (w : Word) : (w + 4).toNat = (w.toNat + 4) % 2 ^ 32 :=
  BitVec.toNat_add w 4

/-- R53, R86: the displacement is added modulo 2^32. -/
theorem toNat_branchTarget (pcNext : Word) (imm : BitVec 16) :
    (branchTarget pcNext imm).toNat = (pcNext.toNat + sextNat imm * 4 % 2 ^ 32) % 2 ^ 32 := by
  rw [branchTarget, branchDisplacement, BitVec.toNat_add, BitVec.toNat_shiftLeft, toNat_sext32,
    Nat.shiftLeft_eq]

/-- R87: the mask keeps the top four bits, and the field times four fills the 28 bits below. -/
theorem toNat_jumpTarget (pcNext : Word) (addr : BitVec 26) :
    (jumpTarget pcNext addr).toNat = pcNext.toNat / 2 ^ 28 * 2 ^ 28 + 4 * addr.toNat := by
  have hmask : pcNext &&& 0xF0000000#32 = (pcNext >>> 28) <<< 28 :=
    (BitVec.shiftLeft_ushiftRight (x := pcNext) (n := 28)).symm
  have hhigh : (pcNext &&& 0xF0000000#32).toNat = (pcNext.toNat / 2 ^ 28) <<< 28 := by
    rw [hmask, BitVec.toNat_shiftLeft, BitVec.toNat_ushiftRight, Nat.shiftRight_eq_div_pow,
      Nat.shiftLeft_eq]
    have := pcNext.isLt
    omega
  have hlow : (addr.setWidth 32 <<< 2).toNat = 4 * addr.toNat := by
    rw [BitVec.toNat_shiftLeft, BitVec.toNat_setWidth_of_le (by decide), Nat.shiftLeft_eq]
    have := addr.isLt
    omega
  have hlt : 4 * addr.toNat < 2 ^ 28 := by
    have := addr.isLt
    omega
  rw [jumpTarget, BitVec.toNat_or, hhigh, hlow, ← Nat.shiftLeft_add_eq_or_of_lt hlt,
    Nat.shiftLeft_eq]

/-! ### The invariant, operation by operation -/

theorem State.Inv.writeReg (h : s.Inv) (r : RegIndex) (v : Word) : (s.writeReg r v).Inv :=
  ⟨h.mem_wf, h.pc_aligned, h.run_legal, by rw [State.writeReg_zero_cell, h.zero_cell]⟩

theorem State.Inv.setPc (h : s.Inv) {w : Word} (hw : w.toNat % 4 = 0) : (s.setPc w).Inv :=
  ⟨h.mem_wf, hw, h.run_legal, h.zero_cell⟩

theorem State.Inv.withMem (h : s.Inv) {m : Memory} (hm : m.wf) : State.Inv { s with mem := m } :=
  ⟨hm, h.pc_aligned, h.run_legal, h.zero_cell⟩

theorem State.Inv.finish (h : s.Inv) {st : Status} (hst : (st.runState s.run).Legal) :
    (s.finish st).Inv :=
  ⟨h.mem_wf, h.pc_aligned, hst, h.zero_cell⟩

theorem State.Inv.advancePc (h : s.Inv) : s.advancePc.Inv := by
  refine h.setPc ?_
  have := h.pc_aligned
  rw [toNat_add_four]
  omega

/-- Every effect a handler can have keeps the invariant. -/
theorem Effect.inv (he : Effect s t) (h : s.Inv) : t.Inv := by
  have haligned := h.pc_aligned
  cases he with
  | register r v => exact h.writeReg r v
  | store a v hin =>
    have hfits : a.toNat + (bytesOfWord v).length ≤ s.mem.size := by
      rw [bytesOfWord_length]
      omega
    exact h.withMem (Memory.setBytes_wf h.mem_wf hfits)
  | branch imm => exact h.setPc (by rw [toNat_branchTarget]; omega)
  | jump addr => exact h.setPc (by rw [toNat_jumpTarget]; omega)
  | none => exact h
  | halt => exact h.finish (.inl rfl)
  | dataFault => exact h.finish (.inr (.inr rfl))

/-- Every effect a handler can have keeps the memory size. -/
theorem Effect.mem_size (he : Effect s t) : t.mem.size = s.mem.size := by
  cases he with
  | store a v hin => exact Memory.setBytes_size ..
  | register | branch | jump | none | halt | dataFault => rfl

theorem Effect.of_exec {i : Instr} (h : exec i s = .next t) : Effect s t := by
  obtain ⟨u, hu, he⟩ := exec_effect i s
  cases hu.symm.trans h
  exact he

/-! ### The invariant along Steps (R21, R22, R26) -/

/-- Settles O45, by the three ways a Step can end. -/
theorem everyStepKeepsTheInvariant : Obligations.EveryStepKeepsTheInvariant := by
  intro s t hinv hstep
  obtain ⟨-, ⟨-, rfl⟩ | ⟨w, -, ⟨e, -, rfl⟩ | ⟨i, -, hexec⟩⟩⟩ := stepWith_next hstep
  · exact hinv.finish (.inr (.inr rfl))
  · exact hinv.advancePc.finish (.inr (.inl rfl))
  · exact (Effect.of_exec hexec).inv hinv.advancePc

theorem step_mem_size (hstep : step s = .next t) : t.mem.size = s.mem.size := by
  obtain ⟨-, ⟨-, rfl⟩ | ⟨w, -, ⟨e, -, rfl⟩ | ⟨i, -, hexec⟩⟩⟩ := stepWith_next hstep
  · rfl
  · rfl
  · exact (Effect.of_exec hexec).mem_size

theorem State.initial_inv {size : Nat} (h : MemSizeLegal size) : (State.initial size).Inv :=
  ⟨Memory.zeroed_wf h, rfl, trivial, by simp [State.initial]⟩

/-- Settles O44: the memory size of reset is the largest legal one. -/
theorem resetMeetsTheInvariant : Obligations.ResetMeetsTheInvariant :=
  State.initial_inv (by decide)

/-- Loading a fitting image into the zeroed memory keeps its canonical form. -/
theorem launch_inv {size : Nat} {image : List Byte} (h : launch size image = .next s) :
    s.Inv ∧ s.mem.size = size := by
  obtain ⟨hsize, hfits, rfl⟩ := launch_next h
  have hwf := Memory.setBytes_wf (Memory.zeroed_wf hsize) (a := 0) (vs := image)
    (by rw [Nat.zero_add]; exact hfits)
  exact ⟨(State.initial_inv hsize).withMem hwf, Memory.setBytes_size ..⟩

/-- Settles O46, by induction on the Steps taken since the launch. -/
theorem reachableStatesMeetTheInvariant : Obligations.ReachableStatesMeetTheInvariant := by
  intro size image s hreach
  induction hreach with
  | start hlaunch => exact launch_inv hlaunch
  | step _ hstep ih =>
    obtain ⟨hinv, hsize⟩ := ih
    exact ⟨everyStepKeepsTheInvariant _ _ hinv hstep, (step_mem_size hstep).trans hsize⟩

/-! ### Reset (R29) -/

/-- Settles O41: an image byte is read back, and past the image the zeroed memory shows. -/
theorem launchLeavesTheStatedState : Obligations.LaunchLeavesTheStatedState := by
  intro size image hsize hfits
  have hsorted : CellsSorted (Memory.zeroed size).cells := (Memory.zeroed_wf hsize).sorted
  refine ⟨_, launch_eq hsize hfits, fun r => ?_, rfl, rfl, Memory.setBytes_size .., ?_, ?_⟩
  · rw [State.reg_withMem, State.initial_reg]
  · intro i hi
    simp [Memory.byte_setBytes hsorted, hi]
  · intro i hi
    simp [Memory.byte_setBytes hsorted, Nat.not_lt.2 hi]

/-! ### When a Step is enabled (R22, R61) -/

theorem step_next_of_running (hrun : s.run = .running) : ∃ t, step s = .next t := by
  cases hfetch : s.fetch with
  | none => exact ⟨_, stepWith_fetchFault hrun hfetch⟩
  | some w =>
    cases hdecode : decodeWordWith opcodes w with
    | error e => exact ⟨_, stepWith_miss hrun hfetch hdecode⟩
    | ok i =>
      obtain ⟨t, ht, -⟩ := exec_effect i s.advancePc
      exact ⟨t, (stepWith_exec hrun hfetch hdecode).trans ht⟩

/-- Settles O31, by the two run states. -/
theorem stepsExactlyWhileRunning : Obligations.StepsExactlyWhileRunning := by
  intro s
  cases hrun : s.run with
  | running =>
    obtain ⟨t, ht⟩ := step_next_of_running hrun
    simp [ht]
  | stopped st =>
    have hfault : step s = .fault (.stopped st) := stepWith_stopped hrun
    simp [hfault]

/-! ### The counter after a Step (R20) -/

theorem exec_beq_taken {rs rt : RegIndex} (imm : BitVec 16) (h : s.reg rs = s.reg rt) :
    exec (.beq rs rt imm) s = .next (s.setPc (branchTarget s.pc imm)) := by
  rw [exec_beq, if_pos h]

theorem exec_beq_not_taken {rs rt : RegIndex} (imm : BitVec 16) (h : s.reg rs ≠ s.reg rt) :
    exec (.beq rs rt imm) s = .next s := by
  rw [exec_beq, if_neg h]

theorem exec_lw_pc {rt rs : RegIndex} {imm : BitVec 16} (h : exec (.lw rt rs imm) s = .next t) :
    t.pc = s.pc := by
  by_cases hin : s.mem.InBounds (s.effectiveAddress rs imm)
  · cases (exec_lw_inBounds rt rs imm hin).symm.trans h
    rfl
  · cases (exec_lw_outOfBounds rt rs imm hin).symm.trans h
    rfl

theorem exec_sw_pc {rt rs : RegIndex} {imm : BitVec 16} (h : exec (.sw rt rs imm) s = .next t) :
    t.pc = s.pc := by
  by_cases hin : s.mem.InBounds (s.effectiveAddress rs imm)
  · cases (exec_sw_inBounds rt rs imm hin).symm.trans h
    rfl
  · cases (exec_sw_outOfBounds rt rs imm hin).symm.trans h
    rfl

/-- The table of R20, from the advanced counter the handlers get. -/
theorem exec_advancePc_pc {i : Instr} (h : exec i s.advancePc = .next t) :
    t.pc.toNat = pcAfter s s.pc.toNat i := by
  have hnext : s.advancePc.pc.toNat = (s.pc.toNat + 4) % 2 ^ 32 := toNat_add_four s.pc
  cases i with
  | add | sub | slt | addi | halt =>
    cases h
    exact hnext
  | lw rt rs imm => rw [exec_lw_pc h, hnext, pcAfter]
  | sw rt rs imm => rw [exec_sw_pc h, hnext, pcAfter]
  | beq rs rt imm =>
    by_cases heq : s.reg rs = s.reg rt
    · cases (exec_beq_taken (s := s.advancePc) imm heq).symm.trans h
      rw [State.setPc_pc, toNat_branchTarget, hnext, pcAfter, if_pos heq]
    · cases (exec_beq_not_taken (s := s.advancePc) imm heq).symm.trans h
      rw [hnext, pcAfter, if_neg heq]
  | j addr =>
    cases (exec_j addr s.advancePc).symm.trans h
    rw [State.setPc_pc, toNat_jumpTarget, hnext, pcAfter]

/-- Settles O32, by the outcomes of the fetch and of the dispatch. -/
theorem everyOutcomeLeavesTheTabulatedCounter :
    Obligations.EveryOutcomeLeavesTheTabulatedCounter := by
  intro s hrun
  obtain ⟨t, ht⟩ := step_next_of_running hrun
  refine ⟨t, ht, fun hfetch => ?_, fun w e hfetch hdecode => ?_, fun i ⟨w, hfetch, hdecode⟩ => ?_⟩
  · cases ht.symm.trans (stepWith_fetchFault hrun hfetch)
    rfl
  · cases ht.symm.trans (stepWith_miss hrun hfetch hdecode)
    exact toNat_add_four s.pc
  · exact exec_advancePc_pc ((stepWith_exec hrun hfetch hdecode).symm.trans ht)

/-! ### Register 0 (R16) -/

theorem State.reg_writeReg_same {r : RegIndex} (hr : r ≠ 0) (v : Word) :
    (s.writeReg r v).reg r = v := by
  simp [State.reg_writeReg, hr]

theorem State.reg_writeReg_of_ne {r j : RegIndex} (hj : j ≠ r) (v : Word) :
    (s.writeReg r v).reg j = s.reg j := by
  simp [State.reg_writeReg, hj]

theorem stopsOnly_finish_memoryOutOfBounds (s : State) :
    StopsOnly s (s.finish .memoryOutOfBounds) .memoryOutOfBounds :=
  ⟨rfl, fun _ => rfl, rfl, rfl, fun _ => rfl⟩

/-- Settles O9: a handler with destination 0 ends in `writeReg 0`, which changes nothing. -/
theorem registerZeroIsHardwired : Obligations.RegisterZeroIsHardwired := by
  intro s rs rt imm
  refine ⟨s.reg_zero, exec_add 0 rs rt s, exec_sub 0 rs rt s, exec_slt 0 rs rt s,
    exec_addi 0 rs imm s, fun hin => ?_, fun hout => ?_, fun i j v hi => ?_⟩
  · exact exec_lw_inBounds 0 rs imm hin
  · exact ⟨_, exec_lw_outOfBounds 0 rs imm hout, stopsOnly_finish_memoryOutOfBounds s⟩
  · exact ⟨State.reg_writeReg_same hi v, fun hj => State.reg_writeReg_of_ne hj v⟩

/-! ### The registers an instruction reads (R17) -/

/-- The states `t` and `t'` that an instruction leaves from `s` and `s'` show the same change:
they agree outside the registers, and a register that differs was left alone in both. -/
def SameChange (i : Instr) (s s' t t' : State) : Prop :=
  t'.pc = t.pc ∧ t'.run = t.run ∧ t'.mem = t.mem ∧
    ∀ r, t'.reg r = t.reg r ∨ (t.reg r = s.reg r ∧ t'.reg r = s'.reg r ∧ destination i ≠ some r) ∨
      (t.reg r = s.reg r ∧ t'.reg r = s'.reg r ∧ DataFault s i)

/-- An instruction that writes the same value to its destination in both states. -/
theorem sameChange_writeReg {i : Instr} {s' : State} {rd : RegIndex} {v v' : Word}
    (hpc : s'.pc = s.pc) (hrun : s'.run = s.run) (hmem : s'.mem = s.mem)
    (hd : destination i = some rd) (hv : v' = v) :
    SameChange i s s' (s.writeReg rd v) (s'.writeReg rd v') := by
  subst hv
  refine ⟨hpc, hrun, hmem, fun r => ?_⟩
  rcases eq_or_ne r rd with rfl | hr
  · left
    rcases eq_or_ne r 0 with rfl | hzero
    · rfl
    · rw [State.reg_writeReg_same hzero, State.reg_writeReg_same hzero]
  · right; left
    refine ⟨State.reg_writeReg_of_ne hr _, State.reg_writeReg_of_ne hr _, ?_⟩
    rw [hd]
    exact fun h => hr (Option.some.inj h).symm

/-- An instruction without a destination leaves every register alone. -/
theorem sameChange_of_no_destination {i : Instr} {s' t' : State} (hd : destination i = none)
    (hpc : t'.pc = t.pc) (hrun : t'.run = t.run) (hmem : t'.mem = t.mem)
    (hregs : SameRegs s t) (hregs' : SameRegs s' t') : SameChange i s s' t t' := by
  refine ⟨hpc, hrun, hmem, fun r => .inr (.inl ⟨hregs r, hregs' r, ?_⟩)⟩
  rw [hd]
  exact (Option.some_ne_none r).symm

/-- An access out of bounds leaves every register alone, the destination among them. -/
theorem sameChange_dataFault {i : Instr} {s' : State} (hpc : s'.pc = s.pc) (hmem : s'.mem = s.mem)
    (hfault : DataFault s i) :
    SameChange i s s' (s.finish .memoryOutOfBounds) (s'.finish .memoryOutOfBounds) :=
  ⟨hpc, rfl, hmem, fun _ => .inr (.inr ⟨rfl, rfl, hfault⟩)⟩

theorem effectiveAddress_congr {s' : State} {rs : RegIndex} (imm : BitVec 16)
    (h : s'.reg rs = s.reg rs) : s'.effectiveAddress rs imm = s.effectiveAddress rs imm := by
  rw [State.effectiveAddress, State.effectiveAddress, h]

/-- Settles O25: equal sources give an equal value, address or branch condition. -/
theorem handlersReadOnlyTheirSources : Obligations.HandlersReadOnlyTheirSources := by
  intro i s s' hpc hrun hmem hsrc
  suffices h : ∃ t t', exec i s = .next t ∧ exec i s' = .next t' ∧ SameChange i s s' t t' from h
  cases i with
  | add rd rs rt =>
    obtain ⟨hrs, hrt⟩ : s'.reg rs = s.reg rs ∧ s'.reg rt = s.reg rt := by simpa [sources] using hsrc
    exact ⟨_, _, exec_add .., exec_add .., sameChange_writeReg hpc hrun hmem rfl (by rw [hrs, hrt])⟩
  | sub rd rs rt =>
    obtain ⟨hrs, hrt⟩ : s'.reg rs = s.reg rs ∧ s'.reg rt = s.reg rt := by simpa [sources] using hsrc
    exact ⟨_, _, exec_sub .., exec_sub .., sameChange_writeReg hpc hrun hmem rfl (by rw [hrs, hrt])⟩
  | slt rd rs rt =>
    obtain ⟨hrs, hrt⟩ : s'.reg rs = s.reg rs ∧ s'.reg rt = s.reg rt := by simpa [sources] using hsrc
    exact ⟨_, _, exec_slt .., exec_slt .., sameChange_writeReg hpc hrun hmem rfl (by rw [hrs, hrt])⟩
  | addi rt rs imm =>
    have hrs : s'.reg rs = s.reg rs := by simpa [sources] using hsrc
    exact ⟨_, _, exec_addi .., exec_addi .., sameChange_writeReg hpc hrun hmem rfl (by rw [hrs])⟩
  | lw rt rs imm =>
    have haddr := effectiveAddress_congr imm (hsrc rs (by simp [sources]))
    by_cases hin : s.mem.InBounds (s.effectiveAddress rs imm)
    · exact ⟨_, _, exec_lw_inBounds rt rs imm hin,
        exec_lw_inBounds rt rs imm (by rwa [hmem, haddr]),
        sameChange_writeReg hpc hrun hmem rfl (by rw [hmem, haddr])⟩
    · exact ⟨_, _, exec_lw_outOfBounds rt rs imm hin,
        exec_lw_outOfBounds rt rs imm (by rwa [hmem, haddr]),
        sameChange_dataFault hpc hmem ⟨_, rfl, hin⟩⟩
  | sw rt rs imm =>
    have haddr := effectiveAddress_congr imm (hsrc rs (by simp [sources]))
    have hrt := hsrc rt (by simp [sources])
    by_cases hin : s.mem.InBounds (s.effectiveAddress rs imm)
    · exact ⟨_, _, exec_sw_inBounds rt rs imm hin,
        exec_sw_inBounds rt rs imm (by rwa [hmem, haddr]),
        sameChange_of_no_destination rfl hpc hrun (by rw [hmem, haddr, hrt]) (fun _ => rfl)
          (fun _ => rfl)⟩
    · exact ⟨_, _, exec_sw_outOfBounds rt rs imm hin,
        exec_sw_outOfBounds rt rs imm (by rwa [hmem, haddr]),
        sameChange_dataFault hpc hmem ⟨_, rfl, hin⟩⟩
  | beq rs rt imm =>
    have hrs := hsrc rs (by simp [sources])
    have hrt := hsrc rt (by simp [sources])
    by_cases heq : s.reg rs = s.reg rt
    · exact ⟨_, _, exec_beq_taken imm heq, exec_beq_taken imm (by rwa [hrs, hrt]),
        sameChange_of_no_destination rfl (by rw [State.setPc_pc, State.setPc_pc, hpc]) hrun hmem
          (fun _ => rfl) (fun _ => rfl)⟩
    · exact ⟨_, _, exec_beq_not_taken imm heq, exec_beq_not_taken imm (by rwa [hrs, hrt]),
        sameChange_of_no_destination rfl hpc hrun hmem (fun _ => rfl) (fun _ => rfl)⟩
  | j addr =>
    exact ⟨_, _, exec_j .., exec_j .., sameChange_of_no_destination rfl
      (by rw [State.setPc_pc, State.setPc_pc, hpc]) hrun hmem (fun _ => rfl) (fun _ => rfl)⟩
  | halt =>
    exact ⟨_, _, exec_halt .., exec_halt ..,
      sameChange_of_no_destination rfl hpc rfl hmem (fun _ => rfl) (fun _ => rfl)⟩

end Sys2Proof.Machine

/-! PROOFS. The memory of 20_memory.md: the checked accesses (R33 to R36), the bytes of an encoded
instruction (R32), and what a load and a fetch see of a store (R43, R45). -/

namespace Sys2Proof.Machine

open Sys2Proof.Claims

variable {s t : State}

/-! ### The bounds check (R33) -/

/-- Settles O12: the sum is one of natural numbers, and no legal size is above 2^32. -/
theorem boundsCheckNeverWraps : Obligations.BoundsCheckNeverWraps := by
  intro m a
  refine ⟨Iff.rfl, fun hlegal htop => ?_, fun hsmall => ?_⟩
  · have hsize : m.size ≤ 2 ^ 32 := hlegal.2
    omega
  · omega

/-! ### A word and its four bytes (R31, R34, R35) -/

/-- An append is a sum: the left part is worth its value times the weight of the right part. -/
theorem toNat_append_eq_add {m n : Nat} (x : BitVec m) (y : BitVec n) :
    (x ++ y).toNat = x.toNat * 2 ^ n + y.toNat := by
  rw [BitVec.toNat_append, ← Nat.shiftLeft_add_eq_or_of_lt y.isLt, Nat.shiftLeft_eq]

theorem toNat_wordOfBytes (b0 b1 b2 b3 : Byte) :
    (wordOfBytes b0 b1 b2 b3).toNat =
      b0.toNat * 2 ^ 24 + b1.toNat * 2 ^ 16 + b2.toNat * 2 ^ 8 + b3.toNat := by
  simp only [wordOfBytes, toNat_append_eq_add]
  omega

theorem Memory.toNat_wordAt (m : Memory) (a : Nat) : (m.wordAt a).toNat = bigEndian m a :=
  toNat_wordOfBytes ..

/-- R9: the bits from `lo` to `hi`, as the decoder and the store take them out. -/
theorem toNat_extractLsb'_eq_bits (w : Word) (hi lo : Nat) :
    (w.extractLsb' lo (hi - lo + 1)).toNat = bits w hi lo := by
  rw [BitVec.extractLsb'_toNat, Nat.shiftRight_eq_div_pow, bits]

theorem Memory.wordAt_eq_of_bytes {m : Memory} {a : Nat} {w : Word}
    (h : (List.range 4).map (fun k => m.byte (a + k)) = bytesOfWord w) : m.wordAt a = w := by
  have hbytes : [m.byte a, m.byte (a + 1), m.byte (a + 2), m.byte (a + 3)] = bytesOfWord w := h
  simp only [bytesOfWord, List.cons.injEq] at hbytes
  obtain ⟨h0, h1, h2, h3, -⟩ := hbytes
  rw [Memory.wordAt, h0, h1, h2, h3, wordOfBytes_bytesOfWord]

/-! ### The checked accesses (R34 to R36) -/

/-- Settles O13: the read is the word of the four bytes, whose value is their big-endian sum. -/
theorem memReadIsBigEndian : Obligations.MemReadIsBigEndian := by
  intro m a
  exact ⟨fun hin => ⟨_, Memory.load_eq_some.2 ⟨hin, rfl⟩, m.toNat_wordAt _⟩, Memory.load_eq_none.2⟩

/-- Each of the four bytes a word is stored in. -/
theorem Memory.byte_setBytes_bytesOfWord {m : Memory} (hs : CellsSorted m.cells) (a : Nat)
    (v : Word) {k : Nat} (hk : k < 4) :
    (m.setBytes a (bytesOfWord v)).byte (a + k) = (bytesOfWord v)[k] := by
  have hspan : a ≤ a + k ∧ a + k < a + (bytesOfWord v).length := ⟨by omega, by simpa using hk⟩
  rw [Memory.byte_setBytes hs, dif_pos hspan]
  exact getElem_congr_idx (Nat.add_sub_cancel_left ..)

/-- R35: the four stored bytes are the four bit ranges of the word, most significant first. -/
theorem Memory.toNat_byte_setBytes_bytesOfWord {m : Memory} (hs : CellsSorted m.cells) (a : Nat)
    (v : Word) :
    ((m.setBytes a (bytesOfWord v)).byte a).toNat = bits v 31 24 ∧
      ((m.setBytes a (bytesOfWord v)).byte (a + 1)).toNat = bits v 23 16 ∧
      ((m.setBytes a (bytesOfWord v)).byte (a + 2)).toNat = bits v 15 8 ∧
      ((m.setBytes a (bytesOfWord v)).byte (a + 3)).toNat = bits v 7 0 := by
  have hbyte := fun k (hk : k < 4) => Memory.byte_setBytes_bytesOfWord hs a v hk
  exact ⟨(congrArg BitVec.toNat (hbyte 0 (by decide))).trans (toNat_extractLsb'_eq_bits v 31 24),
    (congrArg BitVec.toNat (hbyte 1 (by decide))).trans (toNat_extractLsb'_eq_bits v 23 16),
    (congrArg BitVec.toNat (hbyte 2 (by decide))).trans (toNat_extractLsb'_eq_bits v 15 8),
    (congrArg BitVec.toNat (hbyte 3 (by decide))).trans (toNat_extractLsb'_eq_bits v 7 0)⟩

/-- Settles O14: the write is four byte writes, all of them inside the memory, or none. -/
theorem memWriteIsBigEndianAndWhole : Obligations.MemWriteIsBigEndianAndWhole := by
  intro m a v hwf
  refine ⟨fun hin => ?_, Memory.store_eq_none.2⟩
  have hstore : m.store a v = some _ := Memory.store_eq_some.2 ⟨hin, rfl⟩
  obtain ⟨hwf', hsize, -, hother⟩ := Memory.store_spec hwf hstore
  obtain ⟨h0, h1, h2, h3⟩ := Memory.toNat_byte_setBytes_bytesOfWord hwf.sorted a.toNat v
  exact ⟨_, hstore, hwf', hsize, h0, h1, h2, h3, hother⟩

/-! ### The decoder on encoded words (R47) -/

theorem decodeWordWith_rFormat {p : OpcodeMap} {fn : BitVec 6} {k : SecondaryHandler}
    (hk : secondaryTable p fn = some k) (rs rt rd : RegIndex) :
    decodeWordWith p (rFormat rs rt rd fn) =
      .ok (secondaryInstr (extractFields (rFormat rs rt rd fn)) k) := by
  obtain ⟨hop, -, -, -, hfn⟩ := extractFields_rFormat rs rt rd fn
  exact decodeWordWith_secondary hop (by rwa [hfn])

theorem decodeWordWith_iFormat {p : OpcodeMap} {op : BitVec 6} {k : PrimaryHandler}
    (hne : op ≠ opRtype) (hk : primaryTable p op = some k) (rs rt : RegIndex) (imm : BitVec 16) :
    decodeWordWith p (iFormat op rs rt imm) =
      .ok (primaryInstr (extractFields (iFormat op rs rt imm)) k) := by
  obtain ⟨hop, -⟩ := extractFields_iFormat op rs rt imm
  exact decodeWordWith_primary (by rwa [hop]) (by rwa [hop])

theorem decodeWordWith_jFormat {p : OpcodeMap} {op : BitVec 6} {k : PrimaryHandler}
    (hne : op ≠ opRtype) (hk : primaryTable p op = some k) (addr : BitVec 26) :
    decodeWordWith p (jFormat op addr) =
      .ok (primaryInstr (extractFields (jFormat op addr)) k) := by
  obtain ⟨hop, -⟩ := extractFields_jFormat op addr
  exact decodeWordWith_primary (by rwa [hop]) (by rwa [hop])

/-- The decoder undoes the encoder under all opcode numbers within R8: the format gives the fields
back, and the number stands in the slot of its own handler. -/
theorem decodeWordWith_encodeWith {p : OpcodeMap} (hp : p.WF) (i : Instr) :
    decodeWordWith p (encodeWith p i) = .ok i := by
  obtain ⟨hadd, hsub, hslt⟩ := hp.secondary
  obtain ⟨hj, hbeq, haddi, hhalt, hlw, hsw⟩ := hp.primary
  obtain ⟨nj, nbeq, naddi, nhalt, nlw, nsw⟩ := hp.ne_rtype
  cases i with
  | add rd rs rt =>
    simp [encodeWith, decodeWordWith_rFormat hadd, secondaryInstr, extractFields_rFormat]
  | sub rd rs rt =>
    simp [encodeWith, decodeWordWith_rFormat hsub, secondaryInstr, extractFields_rFormat]
  | slt rd rs rt =>
    simp [encodeWith, decodeWordWith_rFormat hslt, secondaryInstr, extractFields_rFormat]
  | addi rt rs imm =>
    simp [encodeWith, decodeWordWith_iFormat naddi haddi, primaryInstr, extractFields_iFormat]
  | lw rt rs imm =>
    simp [encodeWith, decodeWordWith_iFormat nlw hlw, primaryInstr, extractFields_iFormat]
  | sw rt rs imm =>
    simp [encodeWith, decodeWordWith_iFormat nsw hsw, primaryInstr, extractFields_iFormat]
  | beq rs rt imm =>
    simp [encodeWith, decodeWordWith_iFormat nbeq hbeq, primaryInstr, extractFields_iFormat]
  | j addr => simp [encodeWith, decodeWordWith_jFormat nj hj, primaryInstr, extractFields_jFormat]
  | halt => exact decodeWordWith_jFormat nhalt hhalt 0

/-- Settles O27: the fetch assembles the encoder's word, and the decoder undoes the encoder. -/
theorem encodedInstructionInMemoryRuns : Obligations.EncodedInstructionInMemoryRuns := by
  intro p i s hp hrun hin hbytes
  have hfetch : s.fetch = some (encodeWith p i) :=
    State.fetch_eq_some.2 ⟨hin, Memory.wordAt_eq_of_bytes hbytes⟩
  exact stepWith_exec hrun hfetch (decodeWordWith_encodeWith hp i)

/-! ### What a load and a fetch see of a store (R43, R45) -/

theorem exec_lw_of_load {rs : RegIndex} {imm : BitVec 16} {v : Word} (rt : RegIndex)
    (h : s.mem.load (s.effectiveAddress rs imm) = some v) :
    exec (.lw rt rs imm) s = .next (s.writeReg rt v) := by
  obtain ⟨hin, rfl⟩ := Memory.load_eq_some.1 h
  exact exec_lw_inBounds rt rs imm hin

/-- What an in-bounds store leaves: the stored word at its address, and the run state as it was. -/
theorem exec_sw_load_and_run {rt rs : RegIndex} {imm : BitVec 16} (hwf : s.mem.wf)
    (hin : s.mem.InBounds (s.effectiveAddress rs imm)) (h : exec (.sw rt rs imm) s = .next t) :
    t.mem.load (s.effectiveAddress rs imm) = some (s.reg rt) ∧ t.run = s.run := by
  cases (exec_sw_inBounds rt rs imm hin).symm.trans h
  obtain ⟨-, -, hload, -⟩ := Memory.store_spec hwf (Memory.store_eq_some.2 ⟨hin, rfl⟩)
  exact ⟨hload, rfl⟩

/-- A register write, in the form the statements give it. -/
theorem writesOnly_writeReg (s : State) (r : RegIndex) (v : Word) :
    WritesOnly s (s.writeReg r v) r v :=
  ⟨fun j => State.reg_writeReg s r j v, rfl, rfl, rfl, fun _ => rfl⟩

/-- Settles O38: the load reads at the address of the store, where the stored word lies. -/
theorem loadAfterStoreGivesTheStoredWord : Obligations.LoadAfterStoreGivesTheStoredWord := by
  intro s t rt rs imm rt' rs' imm' hwf hin hsw haddr
  obtain ⟨hload, -⟩ := exec_sw_load_and_run hwf hin hsw
  rw [← haddr] at hload
  exact ⟨_, exec_lw_of_load rt' hload, writesOnly_writeReg t rt' (s.reg rt)⟩

/-- Settles O40: the Step leaves the counter at the address it stored to, still Running. -/
theorem storedWordIsFetchedByTheNextStep : Obligations.StoredWordIsFetchedByTheNextStep := by
  intro s t rt rs imm hwf ⟨w, hfetch, hdecode⟩ hin haddr hstep
  obtain ⟨hrun, -⟩ := stepWith_next hstep
  have hsw : exec (.sw rt rs imm) s.advancePc = .next t :=
    (stepWith_exec hrun hfetch hdecode).symm.trans hstep
  have hpc : t.pc = s.effectiveAddress rs imm := (exec_sw_pc hsw).trans haddr.symm
  obtain ⟨hload, hrun'⟩ := exec_sw_load_and_run (s := s.advancePc) hwf hin hsw
  have hfetch' : t.fetch = some (s.reg rt) := by
    rw [State.fetch, hpc]
    exact hload
  exact ⟨hfetch', fun i hi => stepWith_exec (hrun'.trans hrun) hfetch' hi⟩

end Sys2Proof.Machine

/-! PROOFS. The encoding of 30_encoding.md: fields and formats (R48, R49), the bits an instruction
reads (R51), the branch displacement (R53), the rows (R56), the illegal words (R57) and the lines
of assembly (R59). -/

namespace Sys2Proof.Machine

open Sys2Proof.Claims

/-! ### The fields of a word (R48) -/

/-- Settles O6: each field is the slice of the word its bit positions name. -/
theorem fieldsAreTheStatedBitRanges : Obligations.FieldsAreTheStatedBitRanges := fun w =>
  ⟨toNat_extractLsb'_eq_bits w 31 26, toNat_extractLsb'_eq_bits w 25 21,
    toNat_extractLsb'_eq_bits w 20 16, toNat_extractLsb'_eq_bits w 15 11,
    toNat_extractLsb'_eq_bits w 10 6, toNat_extractLsb'_eq_bits w 5 0,
    toNat_extractLsb'_eq_bits w 15 0, toNat_extractLsb'_eq_bits w 25 0⟩

/-! ### Decoding what the encoder wrote (R47, R56) -/

theorem decodeBytes_bytesOfWord_append {p : OpcodeMap} {w : Word} {i : Instr}
    (h : decodeWordWith p w = .ok i) (rest : List Byte) :
    decodeBytes p (bytesOfWord w ++ rest) = .ok (i, rest) := by
  simp [bytesOfWord, decodeBytes, h]

/-- Settles O1: the decoder undoes the encoder on words, and the four bytes give the word back. -/
theorem decodeOfEncodeIsTheInstruction : Obligations.DecodeOfEncodeIsTheInstruction := by
  intro p hp i
  have hword : decodeWordWith p (encodeWith p i) = .ok i := decodeWordWith_encodeWith hp i
  exact ⟨hword, decodeBytes_bytesOfWord_append hword⟩

/-! ### A word and the formats of its fields (R49) -/

/-- Words that agree under a mask agree in every slice the mask keeps whole. -/
theorem extractLsb'_eq_of_and_eq {w w' m : Word} {lo n : Nat}
    (hm : m.extractLsb' lo n = BitVec.allOnes n) (h : w &&& m = w' &&& m) :
    w.extractLsb' lo n = w'.extractLsb' lo n := by
  simpa [BitVec.extractLsb'_and, hm] using congrArg (BitVec.extractLsb' lo n) h

theorem jFormat_fields (w : Word) : jFormat (extractFields w).opcode (extractFields w).addr = w :=
  (BitVec.extractLsb'_append_extractLsb'_eq_extractLsb' rfl).trans BitVec.extractLsb'_eq_self

/-- The opcode and the first two registers are the upper half of a word. -/
theorem append_opcode_rs_rt (w : Word) :
    (extractFields w).opcode ++ (extractFields w).rs ++ (extractFields w).rt =
      w.extractLsb' 16 16 := by
  have hrs : (extractFields w).opcode ++ (extractFields w).rs = w.extractLsb' 21 11 :=
    BitVec.extractLsb'_append_extractLsb'_eq_extractLsb' rfl
  rw [hrs]
  exact BitVec.extractLsb'_append_extractLsb'_eq_extractLsb' rfl

theorem iFormat_fields (w : Word) :
    iFormat (extractFields w).opcode (regOfField (extractFields w).rs)
      (regOfField (extractFields w).rt) (extractFields w).imm = w := by
  rw [iFormat, fieldOfReg_regOfField, fieldOfReg_regOfField, append_opcode_rs_rt]
  exact (BitVec.extractLsb'_append_extractLsb'_eq_extractLsb' rfl).trans BitVec.extractLsb'_eq_self

/-- The mask of the register format keeps all but `shamt` (R51). -/
theorem append_and_registerMask (x : BitVec 21) (shamt : BitVec 5) (fn : BitVec 6) :
    (x ++ shamt ++ fn : Word) &&& 0xFFFFF83F#32 = x ++ 0#5 ++ fn := by
  have hmask : 0xFFFFF83F#32 = BitVec.allOnes 21 ++ 0#5 ++ BitVec.allOnes 6 := rfl
  rw [hmask, BitVec.and_append, BitVec.and_append, BitVec.and_allOnes, BitVec.and_allOnes,
    BitVec.and_zero]

theorem jFormat_and_opcodeMask (op : BitVec 6) (addr : BitVec 26) :
    jFormat op addr &&& 0xFC000000#32 = jFormat op 0 := by
  have hmask : 0xFC000000#32 = BitVec.allOnes 6 ++ 0#26 := rfl
  rw [jFormat, hmask, BitVec.and_append, BitVec.and_allOnes, BitVec.and_zero]
  rfl

/-- A word with opcode 0 is the register-format word of its fields, but for `shamt`. -/
theorem rFormat_fields {w : Word} (hop : (extractFields w).opcode = opRtype) :
    rFormat (regOfField (extractFields w).rs) (regOfField (extractFields w).rt)
        (regOfField (extractFields w).rd) (extractFields w).funct &&& 0xFFFFF83F#32 =
      w &&& 0xFFFFF83F#32 := by
  have hhigh : (extractFields w).opcode ++ (extractFields w).rs ++ (extractFields w).rt ++
      (extractFields w).rd = w.extractLsb' 11 21 := by
    rw [append_opcode_rs_rt]
    exact BitVec.extractLsb'_append_extractLsb'_eq_extractLsb' rfl
  have hlow : w.extractLsb' 11 21 ++ (extractFields w).shamt = w.extractLsb' 6 26 :=
    BitVec.extractLsb'_append_extractLsb'_eq_extractLsb' rfl
  have hw : w.extractLsb' 11 21 ++ (extractFields w).shamt ++ (extractFields w).funct = w := by
    rw [hlow]
    exact (BitVec.extractLsb'_append_extractLsb'_eq_extractLsb' rfl).trans
      BitVec.extractLsb'_eq_self
  rw [rFormat, fieldOfReg_regOfField, fieldOfReg_regOfField, fieldOfReg_regOfField, ← hop, hhigh]
  conv_rhs => rw [← hw]
  exact (append_and_registerMask _ _ _).trans (append_and_registerMask _ _ _).symm

/-! ### The bits an instruction reads (R51) -/

theorem readBits_secondaryInstr (f : Fields) (k : SecondaryHandler) :
    readBits (secondaryInstr f k) = 0xFFFFF83F#32 := by
  cases k <;> rfl

theorem readBits_primaryInstr (f : Fields) {k : PrimaryHandler} (hk : k ≠ .halt) :
    readBits (primaryInstr f k) = BitVec.allOnes 32 := by
  cases k with
  | halt => contradiction
  | j | beq | addi | lw | sw => rfl

/-- A populated slot holds the number of its own handler. -/
theorem secondarySlot_of_table {p : OpcodeMap} {fn : BitVec 6} {k : SecondaryHandler}
    (h : secondaryTable p fn = some k) : secondarySlot p k = fn := by
  unfold secondaryTable at h
  split_ifs at h <;> cases h <;> exact Eq.symm ‹_›

theorem primarySlot_of_table {p : OpcodeMap} {op : BitVec 6} {k : PrimaryHandler}
    (h : primaryTable p op = some k) : primarySlot p k = op := by
  unfold primaryTable at h
  split_ifs at h <;> cases h <;> exact Eq.symm ‹_›

theorem encodeWith_secondaryInstr (p : OpcodeMap) (f : Fields) (k : SecondaryHandler) :
    encodeWith p (secondaryInstr f k) =
      rFormat (regOfField f.rs) (regOfField f.rt) (regOfField f.rd) (secondarySlot p k) := by
  cases k <;> rfl

/-- The handlers other than `halt` use every field of their format. -/
theorem encodeWith_primaryInstr {p : OpcodeMap} {w : Word} {k : PrimaryHandler} (hk : k ≠ .halt)
    (hslot : primarySlot p k = (extractFields w).opcode) :
    encodeWith p (primaryInstr (extractFields w) k) = w := by
  cases k with
  | halt => contradiction
  | j => exact (congrArg (jFormat · _) hslot).trans (jFormat_fields w)
  | beq | addi | lw | sw => exact (congrArg (iFormat · _ _ _) hslot).trans (iFormat_fields w)

/-- Re-encoding a decoded word gives the word back in the bits the instruction reads. -/
theorem encodeWith_and_readBits {p : OpcodeMap} {w : Word} {i : Instr}
    (h : decodeWordWith p w = .ok i) : encodeWith p i &&& readBits i = w &&& readBits i := by
  obtain ⟨hop, k, hk, rfl⟩ | ⟨-, k, hk, rfl⟩ := decodeWordWith_ok h
  · rw [readBits_secondaryInstr, encodeWith_secondaryInstr, secondarySlot_of_table hk]
    exact rFormat_fields hop
  · have hslot := primarySlot_of_table hk
    by_cases hhalt : k = .halt
    · subst hhalt
      calc jFormat p.opHalt 0 &&& 0xFC000000#32
        _ = jFormat (extractFields w).opcode 0 &&& 0xFC000000#32 :=
          congrArg (jFormat · 0 &&& 0xFC000000#32) hslot
        _ = jFormat (extractFields w).opcode (extractFields w).addr &&& 0xFC000000#32 :=
          (jFormat_and_opcodeMask _ _).trans (jFormat_and_opcodeMask _ _).symm
        _ = w &&& 0xFC000000#32 := by rw [jFormat_fields]
    · rw [encodeWith_primaryInstr hhalt hslot]

theorem secondaryInstr_congr {f f' : Fields} (hrs : f.rs = f'.rs) (hrt : f.rt = f'.rt)
    (hrd : f.rd = f'.rd) (k : SecondaryHandler) : secondaryInstr f k = secondaryInstr f' k := by
  cases k <;> simp [secondaryInstr, hrs, hrt, hrd]

/-- R51: a word that agrees in the bits read is routed the same way and gives the same operands. -/
theorem decodeWordWith_of_and_readBits {p : OpcodeMap} {w w' : Word} {i : Instr}
    (h : decodeWordWith p w = .ok i) (hbits : w' &&& readBits i = w &&& readBits i) :
    decodeWordWith p w' = .ok i := by
  obtain ⟨hop, k, hk, rfl⟩ | ⟨hop, k, hk, rfl⟩ := decodeWordWith_ok h
  · rw [readBits_secondaryInstr] at hbits
    have hop' : (extractFields w').opcode = (extractFields w).opcode :=
      extractLsb'_eq_of_and_eq rfl hbits
    have hfn : (extractFields w').funct = (extractFields w).funct :=
      extractLsb'_eq_of_and_eq rfl hbits
    rw [decodeWordWith_secondary (hop'.trans hop) (by rwa [hfn])]
    exact congrArg _ (secondaryInstr_congr (extractLsb'_eq_of_and_eq rfl hbits)
      (extractLsb'_eq_of_and_eq rfl hbits) (extractLsb'_eq_of_and_eq rfl hbits) k)
  · by_cases hhalt : k = .halt
    · subst hhalt
      have hbits : w' &&& 0xFC000000#32 = w &&& 0xFC000000#32 := hbits
      have hop' : (extractFields w').opcode = (extractFields w).opcode :=
        extractLsb'_eq_of_and_eq rfl hbits
      exact decodeWordWith_primary (by rwa [hop']) (by rwa [hop'])
    · rw [readBits_primaryInstr _ hhalt, BitVec.and_allOnes, BitVec.and_allOnes] at hbits
      exact hbits ▸ h

/-- The words an instruction is decoded from are those that read like its encoding (R51). -/
theorem decodeWordWith_eq_ok_iff {p : OpcodeMap} (hp : p.WF) {w : Word} {i : Instr} :
    decodeWordWith p w = .ok i ↔ w &&& readBits i = encodeWith p i &&& readBits i :=
  ⟨fun h => (encodeWith_and_readBits h).symm,
    decodeWordWith_of_and_readBits (decodeWordWith_encodeWith hp i)⟩

/-- Settles O2: both words are compared with the encoder's word. -/
theorem unreadBitsSelectTheSameInstruction : Obligations.UnreadBitsSelectTheSameInstruction := by
  intro p hp w i h
  have henc := encodeWith_and_readBits h
  exact ⟨henc, fun w' => by rw [decodeWordWith_eq_ok_iff hp, henc]⟩

/-! ### The rows (R56) -/

/-- The mask of the primary rows keeps the opcode. -/
theorem and_opcodeMask_eq_iff {w : Word} {op : BitVec 6} :
    w &&& 0xFC000000#32 = jFormat op 0 ↔ (extractFields w).opcode = op := by
  conv_lhs => rw [← jFormat_fields w, jFormat_and_opcodeMask]
  exact BitVec.append_left_inj _

/-- The mask of the secondary rows keeps the opcode and the function code. -/
theorem rFormat_and_rowMask (rs rt rd : RegIndex) (fn : BitVec 6) :
    rFormat rs rt rd fn &&& 0xFC00003F#32 = rFormat 0 0 0 fn := by
  have hmask : 0xFC00003F#32 =
      BitVec.allOnes 6 ++ 0#5 ++ 0#5 ++ 0#5 ++ 0#5 ++ BitVec.allOnes 6 := rfl
  rw [rFormat, hmask]
  iterate 5 rw [BitVec.and_append]
  simp only [BitVec.and_allOnes, BitVec.and_zero]
  rfl

/-- Agreeing with a register-format word but for `shamt`, for some registers, is having its opcode
and function code. -/
theorem exists_rFormat_iff (w : Word) (fn : BitVec 6) :
    (∃ rd rs rt, w &&& 0xFFFFF83F#32 = rFormat rs rt rd fn &&& 0xFFFFF83F#32) ↔
      w &&& 0xFC00003F#32 = rFormat 0 0 0 fn := by
  constructor
  · rintro ⟨rd, rs, rt, h⟩
    calc w &&& 0xFC00003F#32
      _ = w &&& 0xFFFFF83F#32 &&& 0xFC00003F#32 :=
        (BitVec.and_assoc w 0xFFFFF83F#32 0xFC00003F#32).symm
      _ = rFormat rs rt rd fn &&& 0xFFFFF83F#32 &&& 0xFC00003F#32 := by rw [h]
      _ = rFormat rs rt rd fn &&& 0xFC00003F#32 := BitVec.and_assoc ..
      _ = rFormat 0 0 0 fn := rFormat_and_rowMask rs rt rd fn
  · intro h
    obtain ⟨hop, -, -, -, hfn⟩ := extractFields_rFormat 0 0 0 fn
    rw [← rFormat_and_rowMask 0 0 0 fn] at h
    obtain rfl : (extractFields w).funct = fn := (extractLsb'_eq_of_and_eq rfl h).trans hfn
    exact ⟨_, _, _, (rFormat_fields ((extractLsb'_eq_of_and_eq rfl h).trans hop)).symm⟩

theorem exists_iFormat_iff (w : Word) (op : BitVec 6) :
    (∃ rs rt imm, w &&& 0xFFFFFFFF#32 = iFormat op rs rt imm &&& 0xFFFFFFFF#32) ↔
      w &&& 0xFC000000#32 = jFormat op 0 := by
  rw [and_opcodeMask_eq_iff]
  constructor
  · rintro ⟨rs, rt, imm, h⟩
    exact (extractLsb'_eq_of_and_eq rfl h).trans (extractFields_iFormat op rs rt imm).1
  · rintro rfl
    exact ⟨_, _, _, congrArg (· &&& 0xFFFFFFFF#32) (iFormat_fields w).symm⟩

theorem exists_jFormat_iff (w : Word) (op : BitVec 6) :
    (∃ addr, w &&& 0xFFFFFFFF#32 = jFormat op addr &&& 0xFFFFFFFF#32) ↔
      w &&& 0xFC000000#32 = jFormat op 0 := by
  rw [and_opcodeMask_eq_iff]
  constructor
  · rintro ⟨addr, h⟩
    exact (extractLsb'_eq_of_and_eq rfl h).trans (extractFields_jFormat op addr).1
  · rintro rfl
    exact ⟨_, congrArg (· &&& 0xFFFFFFFF#32) (jFormat_fields w).symm⟩

/-- Settles O3: each row's mask keeps the opcode and, in the register format, the function code. -/
theorem decodeFollowsTheNineRows : Obligations.DecodeFollowsTheNineRows := by
  intro w
  simp only [decodeWord, decodeWordWith_eq_ok_iff opcodes_wf]
  exact ⟨exists_rFormat_iff w _, exists_rFormat_iff w _, exists_rFormat_iff w _,
    exists_comm.trans (exists_iFormat_iff w _), exists_comm.trans (exists_iFormat_iff w _),
    exists_comm.trans (exists_iFormat_iff w _), exists_iFormat_iff w _, exists_jFormat_iff w _,
    Iff.rfl⟩

/-! ### The illegal words (R57, R68) -/

theorem primaryTable_eq_none_iff {p : OpcodeMap} {op : BitVec 6} :
    primaryTable p op = none ↔ op ∉ p.primaries := by
  unfold primaryTable
  split_ifs <;> simp [OpcodeMap.primaries, *]

theorem secondaryTable_eq_none_iff {p : OpcodeMap} {fn : BitVec 6} :
    secondaryTable p fn = none ↔ fn ∉ p.functs := by
  unfold secondaryTable
  split_ifs <;> simp [OpcodeMap.functs, *]

/-- A word is illegal when the table its opcode routes it to has no handler for it. -/
theorem exists_decodeWordWith_error_iff {p : OpcodeMap} {w : Word} :
    (∃ e, decodeWordWith p w = .error e) ↔
      ((extractFields w).opcode ≠ opRtype ∧ primaryTable p (extractFields w).opcode = none) ∨
      ((extractFields w).opcode = opRtype ∧ secondaryTable p (extractFields w).funct = none) := by
  by_cases hop : (extractFields w).opcode = opRtype
  · cases hk : secondaryTable p (extractFields w).funct <;> simp [decodeWordWith, route, hop, hk]
  · cases hk : primaryTable p (extractFields w).opcode <;> simp [decodeWordWith, route, hop, hk]

/-- Being none of some numbers, over plain numbers. -/
theorem notMem_iff_toNat_ne {n : Nat} {x : BitVec n} {l : List (BitVec n)} :
    x ∉ l ↔ ∀ y ∈ l, x.toNat ≠ y.toNat := by
  simp only [ne_eq, BitVec.toNat_inj, List.forall_mem_ne]

theorem executeWord_of_error {p : OpcodeMap} {w : Word} {e : Reject}
    (h : decodeWordWith p w = .error e) (s : State) :
    executeWord p w s = .next (s.finish .invalidOpcode) := by
  rw [executeWord, h]
  rfl

/-- Settles O4: a word misses exactly when its number is in none of the slots of its table, and a
miss changes the run state alone. -/
theorem unregisteredWordsRaiseInvalidOpcode : Obligations.UnregisteredWordsRaiseInvalidOpcode := by
  refine ⟨fun p _ w => ⟨?_, fun ⟨e, he⟩ s => ?_⟩, ⟨_, rfl⟩, ⟨_, rfl⟩⟩
  · have hop : (extractFields w).opcode.toNat = bits w 31 26 := toNat_extractLsb'_eq_bits w 31 26
    have hfn : (extractFields w).funct.toNat = bits w 5 0 := toNat_extractLsb'_eq_bits w 5 0
    have hrtype : (extractFields w).opcode = opRtype ↔ bits w 31 26 = 0 := by
      rw [← hop]
      exact BitVec.toNat_inj.symm
    rw [exists_decodeWordWith_error_iff, primaryTable_eq_none_iff, secondaryTable_eq_none_iff,
      notMem_iff_toNat_ne, notMem_iff_toNat_ne, hop, hfn, ne_eq, hrtype]
  · exact ⟨_, executeWord_of_error he s, rfl, fun _ => rfl, rfl, rfl, fun _ => rfl⟩

/-! ### The branch displacement (R53) -/

/-- Settles O11: the sign extension keeps the signed value, and four times it stays in 32 bits. -/
theorem branchDisplacementIsFourTimesTheImmediate :
    Obligations.BranchDisplacementIsFourTimesTheImmediate := by
  intro imm pcNext
  have hdisp : (branchDisplacement imm).toNat = sextNat imm * 4 % 2 ^ 32 := by
    rw [branchDisplacement, BitVec.toNat_shiftLeft, toNat_sext32, Nat.shiftLeft_eq]
  have himm := imm.isLt
  have hsigned : signed (branchDisplacement imm) = 4 * signed16 imm := by
    rw [signed, hdisp, sextNat, signed16]
    split_ifs <;> omega
  have hrange : -32768 ≤ signed16 imm ∧ signed16 imm ≤ 32767 := by
    rw [signed16]
    split_ifs <;> omega
  refine ⟨hsigned, by omega, by omega, ?_⟩
  rw [toNat_branchTarget, sextNat, signed16]
  split_ifs <;> omega

/-! ### Lines of assembly (R59) -/

theorem asmReg_val {n : Nat} (h : RegNumber n) : (asmReg n).val = n := Nat.mod_eq_of_lt h

theorem signed16_eq_toInt (v : BitVec 16) : signed16 v = v.toInt := by
  rw [signed16, BitVec.toInt_eq_toNat_cond]
  split_ifs <;> omega

theorem signed16_asmImm {i : Int} (h : Signed16 i) : signed16 (asmImm i) = i := by
  rw [signed16_eq_toInt]
  exact BitVec.toInt_ofInt_eq_self (by decide) h.1 (Int.lt_of_le_of_lt h.2 (by decide))

/-- A line whose operands are in range sets the fields they write. -/
theorem sets_asmInstr {l : Asm} (h : l.wf = true) : Sets l (asmInstr l) := by
  cases l with
  | add rd rs rt | sub rd rs rt | slt rd rs rt =>
    simp only [Asm.wf, Bool.and_eq_true, decide_eq_true_eq] at h
    obtain ⟨⟨hrd, hrs⟩, hrt⟩ := h
    exact ⟨_, _, _, rfl, asmReg_val hrd, asmReg_val hrs, asmReg_val hrt⟩
  | addi rt rs imm =>
    simp only [Asm.wf, Bool.and_eq_true, decide_eq_true_eq] at h
    obtain ⟨⟨hrt, hrs⟩, himm⟩ := h
    exact ⟨_, _, _, rfl, asmReg_val hrt, asmReg_val hrs, signed16_asmImm himm⟩
  | lw rt imm rs | sw rt imm rs =>
    simp only [Asm.wf, Bool.and_eq_true, decide_eq_true_eq] at h
    obtain ⟨⟨hrt, himm⟩, hrs⟩ := h
    exact ⟨_, _, _, rfl, asmReg_val hrt, asmReg_val hrs, signed16_asmImm himm⟩
  | beq rs rt off =>
    simp only [Asm.wf, Bool.and_eq_true, decide_eq_true_eq] at h
    obtain ⟨⟨hrs, hrt⟩, hoff⟩ := h
    exact ⟨_, _, _, rfl, asmReg_val hrs, asmReg_val hrt, signed16_asmImm hoff⟩
  | j addr => exact ⟨_, rfl, Nat.mod_eq_of_lt (of_decide_eq_true h)⟩
  | halt => rfl

/-- Settles O8: the range check of R59 decides between the two clauses. -/
theorem assemblyLinesSetTheirFields : Obligations.AssemblyLinesSetTheirFields := by
  intro l
  exact ⟨fun h => ⟨_, if_pos h, sets_asmInstr h⟩, fun h => if_neg (by simp [h])⟩

end Sys2Proof.Machine

/-! PROOFS. The Step of 40_cycle_decode_dispatch.md: the fetch (R61 to R64), the dispatch (R68 to
R70) and the run (R73 to R76). -/

namespace Sys2Proof.Machine

open Sys2Proof.Claims

variable {s t : State}

/-! ### The dispatch tables (R70) -/

theorem primaryTable_primarySlot {p : OpcodeMap} (hp : p.WF) (k : PrimaryHandler) :
    primaryTable p (primarySlot p k) = some k := by
  obtain ⟨hj, hbeq, haddi, hhalt, hlw, hsw⟩ := hp.primary
  cases k <;> assumption

theorem secondaryTable_secondarySlot {p : OpcodeMap} (hp : p.WF) (k : SecondaryHandler) :
    secondaryTable p (secondarySlot p k) = some k := by
  obtain ⟨hadd, hsub, hslt⟩ := hp.secondary
  cases k <;> assumption

/-- Settles O7: a lookup that hits names its own slot, and slot 0 is none of the six. -/
theorem tablesHoldExactlyTheNineHandlers : Obligations.TablesHoldExactlyTheNineHandlers := by
  intro p hp
  refine ⟨fun op k => ⟨fun h => (primarySlot_of_table h).symm, ?_⟩,
    fun fn k => ⟨fun h => (secondarySlot_of_table h).symm, ?_⟩, ?_⟩
  · rintro rfl
    exact primaryTable_primarySlot hp k
  · rintro rfl
    exact secondaryTable_secondarySlot hp k
  · obtain ⟨-, hrtype, -⟩ := hp
    exact primaryTable_eq_none_iff.2 hrtype

/-! ### The data access of an instruction (R92) -/

theorem not_dataFault_of_no_access {i : Instr} (h : dataAddress s i = none) : ¬ DataFault s i := by
  simp [DataFault, h]

theorem dataFault_iff_of_access {i : Instr} {a : Word} (h : dataAddress s i = some a) :
    DataFault s i ↔ ¬ s.mem.InBounds a := by
  simp [DataFault, h]

/-- An access depends on the registers and the memory alone, which no status changes. -/
theorem dataFault_finish {i : Instr} {st : Status} : DataFault (s.finish st) i ↔ DataFault s i := by
  cases i <;> exact Iff.rfl

/-! ### What a handler may change (R17, R69) -/

/-- From `s` to `t` only what the rule of instruction `i` names has changed. -/
structure HandlerFrame (i : Instr) (s t : State) : Prop where
  regs : ∀ j, destination i ≠ some j → t.reg j = s.reg j
  /-- reads after a write are known for a canonical memory -/
  bytes : s.mem.wf → ∀ b, (∀ a, storeAddress s i = some a → ¬ (a ≤ b ∧ b < a + 4)) →
    t.mem.byte b = s.mem.byte b
  size : t.mem.size = s.mem.size
  pc : (∀ rs rt imm, i ≠ .beq rs rt imm) → (∀ addr, i ≠ .j addr) → t.pc = s.pc
  run : i ≠ .halt → ¬ DataFault s i → t.run = s.run
  fault : DataFault s i → t = s.finish .memoryOutOfBounds

theorem handlerFrame_writeReg {i : Instr} {r : RegIndex} (hd : destination i = some r)
    (hok : ¬ DataFault s i) (v : Word) : HandlerFrame i s (s.writeReg r v) where
  regs j hj := State.reg_writeReg_of_ne (fun h => hj (by rw [hd, h])) v
  bytes _ _ _ := rfl
  size := rfl
  pc _ _ := rfl
  run _ _ := rfl
  fault h := absurd h hok

theorem handlerFrame_setPc {i : Instr} {w : Word}
    (hw : (∀ rs rt imm, i ≠ .beq rs rt imm) → (∀ addr, i ≠ .j addr) → w = s.pc)
    (hok : ¬ DataFault s i) : HandlerFrame i s (s.setPc w) where
  regs _ _ := rfl
  bytes _ _ _ := rfl
  size := rfl
  pc := hw
  run _ _ := rfl
  fault h := absurd h hok

theorem handlerFrame_dataFault {i : Instr} (h : DataFault s i) :
    HandlerFrame i s (s.finish .memoryOutOfBounds) where
  regs _ _ := rfl
  bytes _ _ _ := rfl
  size := rfl
  pc _ _ := rfl
  run _ hok := absurd h hok
  fault _ := rfl

theorem handlerFrame_sw {rt rs : RegIndex} {imm : BitVec 16}
    (hin : s.mem.InBounds (s.effectiveAddress rs imm)) (hok : ¬ DataFault s (.sw rt rs imm))
    (v : Word) : HandlerFrame (.sw rt rs imm) s
      { s with mem := s.mem.setBytes (s.effectiveAddress rs imm).toNat (bytesOfWord v) } where
  regs _ _ := rfl
  bytes hwf b hb := by
    obtain ⟨-, -, -, hother⟩ := Memory.store_spec hwf (Memory.store_eq_some.2 ⟨hin, rfl⟩)
    exact hother b (hb _ (if_pos hin))
  size := Memory.setBytes_size ..
  pc _ _ := rfl
  run _ _ := rfl
  fault h := absurd h hok

theorem handlerFrame_halt : HandlerFrame .halt s (s.finish .haltRequested) where
  regs _ _ := rfl
  bytes _ _ _ := rfl
  size := rfl
  pc _ _ := rfl
  run h _ := absurd rfl h
  fault h := absurd h (not_dataFault_of_no_access rfl)

/-- A handler ends in a next state, and stays within its frame. -/
theorem exec_handlerFrame (i : Instr) (s : State) :
    ∃ t, exec i s = .next t ∧ HandlerFrame i s t := by
  cases i with
  | add rd rs rt =>
    exact ⟨_, exec_add .., handlerFrame_writeReg rfl (not_dataFault_of_no_access rfl) _⟩
  | sub rd rs rt =>
    exact ⟨_, exec_sub .., handlerFrame_writeReg rfl (not_dataFault_of_no_access rfl) _⟩
  | slt rd rs rt =>
    exact ⟨_, exec_slt .., handlerFrame_writeReg rfl (not_dataFault_of_no_access rfl) _⟩
  | addi rt rs imm =>
    exact ⟨_, exec_addi .., handlerFrame_writeReg rfl (not_dataFault_of_no_access rfl) _⟩
  | lw rt rs imm =>
    have hfault : DataFault s (.lw rt rs imm) ↔ ¬ s.mem.InBounds (s.effectiveAddress rs imm) :=
      dataFault_iff_of_access rfl
    by_cases hin : s.mem.InBounds (s.effectiveAddress rs imm)
    · exact ⟨_, exec_lw_inBounds rt rs imm hin,
        handlerFrame_writeReg rfl (fun h => hfault.1 h hin) _⟩
    · exact ⟨_, exec_lw_outOfBounds rt rs imm hin, handlerFrame_dataFault (hfault.2 hin)⟩
  | sw rt rs imm =>
    have hfault : DataFault s (.sw rt rs imm) ↔ ¬ s.mem.InBounds (s.effectiveAddress rs imm) :=
      dataFault_iff_of_access rfl
    by_cases hin : s.mem.InBounds (s.effectiveAddress rs imm)
    · exact ⟨_, exec_sw_inBounds rt rs imm hin, handlerFrame_sw hin (fun h => hfault.1 h hin) _⟩
    · exact ⟨_, exec_sw_outOfBounds rt rs imm hin, handlerFrame_dataFault (hfault.2 hin)⟩
  | beq rs rt imm =>
    have hok : ¬ DataFault s (.beq rs rt imm) := not_dataFault_of_no_access rfl
    by_cases heq : s.reg rs = s.reg rt
    · exact ⟨_, exec_beq_taken imm heq,
        handlerFrame_setPc (fun h _ => absurd rfl (h rs rt imm)) hok⟩
    · exact ⟨_, exec_beq_not_taken imm heq, handlerFrame_setPc (fun _ _ => rfl) hok⟩
  | j addr =>
    exact ⟨_, exec_j .., handlerFrame_setPc (fun _ h => absurd rfl (h addr))
      (not_dataFault_of_no_access rfl)⟩
  | halt => exact ⟨_, exec_halt s, handlerFrame_halt⟩

theorem HandlerFrame.of_exec {i : Instr} (h : exec i s = .next t) : HandlerFrame i s t := by
  obtain ⟨u, hu, hframe⟩ := exec_handlerFrame i s
  cases hu.symm.trans h
  exact hframe

/-- Settles O24: the clauses of the frame, the canonical memory given. -/
theorem handlersChangeOnlyWhatTheirRuleNames :
    Obligations.HandlersChangeOnlyWhatTheirRuleNames := by
  intro i s hwf
  obtain ⟨t, ht, hframe⟩ := exec_handlerFrame i s
  exact ⟨t, ht, hframe.regs, hframe.bytes hwf, hframe.size, hframe.pc, hframe.run, hframe.fault⟩

/-! ### The fetch and the dispatch (R61 to R64, R68) -/

/-- Settles O28, by the two sides of the bounds check. -/
theorem fetchReadsTheWordOrStops : Obligations.FetchReadsTheWordOrStops := by
  refine fun s => ⟨fun hin => ?_, fun hrun hout => ?_⟩
  · exact ⟨_, State.fetch_eq_some.2 ⟨hin, rfl⟩, s.mem.toNat_wordAt _⟩
  · have hfetch : s.fetch = none := State.fetch_eq_none.2 hout
    exact ⟨hfetch, _, stepWith_fetchFault hrun hfetch, stopsOnly_finish_memoryOutOfBounds s⟩

/-- Settles O29: what is left is the advanced state with the run state replaced. -/
theorem dispatchMissStopsAfterTheAdvance : Obligations.DispatchMissStopsAfterTheAdvance := by
  intro s w e hrun hfetch hdecode
  exact ⟨_, stepWith_miss hrun hfetch hdecode, rfl, toNat_add_four s.pc, fun _ => rfl, rfl,
    fun _ => rfl⟩

/-- Settles O26: four bytes with the big-endian value of a word are that word. -/
theorem stepRunsTheDecodedInstruction : Obligations.StepRunsTheDecodedInstruction := by
  intro s w i hrun hin hbytes hdecode
  have hword : s.mem.wordAt s.pc.toNat = w :=
    BitVec.eq_of_toNat_eq ((s.mem.toNat_wordAt _).trans hbytes.symm)
  exact stepWith_exec hrun (State.fetch_eq_some.2 ⟨hin, hword⟩) hdecode

/-! ### The cause of a stop with memory-out-of-bounds (R76) -/

/-- A handler called by a Step, so while Running, stops for its data access only. -/
theorem dataFault_of_exec_stops {i : Instr} (h : exec i s = .next t) (hrun : s.run = .running)
    (hstop : t.run = .stopped .memoryOutOfBounds) : DataFault s i := by
  by_contra hok
  by_cases hhalt : i = .halt
  · subst hhalt
    cases (exec_halt s).symm.trans h
    cases hstop
  · have hkept : t.run = s.run := (HandlerFrame.of_exec h).run hhalt hok
    cases hstop.symm.trans (hkept.trans hrun)

/-- Settles O35: a fetch fault leaves the counter out of bounds, a miss stops with another status,
and after a data fault the counter minus 4 is where the instruction was fetched. -/
theorem inBoundsCounterTellsADataFault : Obligations.InBoundsCounterTellsADataFault := by
  intro s t hstep hstop hin
  obtain ⟨hrun, ⟨hfetch, rfl⟩ | ⟨w, hfetch, ⟨e, -, rfl⟩ | ⟨i, hdecode, hexec⟩⟩⟩ :=
    stepWith_next hstep
  · exact absurd hin (State.fetch_eq_none.1 hfetch)
  · cases hstop
  · have hfault : DataFault s.advancePc i := dataFault_of_exec_stops hexec hrun hstop
    obtain rfl := (HandlerFrame.of_exec hexec).fault hfault
    refine ⟨w, i, ?_, hdecode, dataFault_finish.2 hfault⟩
    have hpc : (s.advancePc.finish .memoryOutOfBounds).pc - 4 = s.pc := BitVec.add_sub_cancel s.pc 4
    rw [hpc]
    exact hfetch

/-! ### Runs (R73 to R75) -/

theorem runFor_succ (h : step s = .next t) (n : Nat) : runFor (n + 1) s = runFor n t := by
  rw [runFor, h]

theorem runFor_of_stopped {st : Status} (h : s.run = .stopped st) (n : Nat) : runFor n s = s := by
  have hfault : step s = .fault (.stopped st) := stepWith_stopped h
  cases n with
  | zero => rfl
  | succ n => rw [runFor, hfault]

/-- Settles O30: no Step, and so no iteration of the run, is enabled. -/
theorem stoppedMachineTakesNoStep : Obligations.StoppedMachineTakesNoStep := by
  intro s st h
  exact ⟨stepWith_stopped h, runFor_of_stopped h⟩

theorem runFor_add (n k : Nat) (s : State) : runFor (n + k) s = runFor k (runFor n s) := by
  induction n generalizing s with
  | zero => rw [Nat.zero_add, runFor]
  | succ n ih =>
    cases hrun : s.run with
    | running =>
      obtain ⟨t, ht⟩ := step_next_of_running hrun
      rw [Nat.succ_add, runFor_succ ht, runFor_succ ht, ih]
    | stopped st => simp only [runFor_of_stopped hrun]

/-- A run keeps what every Step keeps. -/
theorem State.Inv.runFor (h : s.Inv) (n : Nat) : (runFor n s).Inv := by
  induction n generalizing s with
  | zero => exact h
  | succ n ih =>
    cases hrun : s.run with
    | running =>
      obtain ⟨t, ht⟩ := step_next_of_running hrun
      rw [runFor_succ ht]
      exact ih (everyStepKeepsTheInvariant s t h ht)
    | stopped st => rwa [runFor_of_stopped hrun]

theorem State.result_eq_some {st : Status} : s.result = some st ↔ s.run = .stopped st := by
  cases hrun : s.run <;> simp [State.result, hrun]

theorem State.result_eq_none : s.result = none ↔ s.run = .running := by
  cases hrun : s.run <;> simp [State.result, hrun]

/-- Settles O47: the invariant bounds the statuses of a stop, and a stopped machine stays so. -/
theorem runResultIsFinalAndOneOfThree : Obligations.RunResultIsFinalAndOneOfThree := by
  intro size image s n st hlaunch hresult
  obtain ⟨hinv, -⟩ := launch_inv hlaunch
  have hstop : (runFor n s).run = .stopped st := State.result_eq_some.1 hresult
  refine ⟨?_, fun m hm => ?_⟩
  · have hlegal := (hinv.runFor n).run_legal
    rwa [hstop] at hlegal
  · obtain ⟨k, rfl⟩ := Nat.exists_eq_add_of_le hm
    rw [runFor_add, runFor_of_stopped hstop]

theorem runFor_of_step_self (h : step s = .next s) (n : Nat) : runFor n s = s := by
  induction n with
  | zero => rfl
  | succ n ih => rw [runFor_succ h, ih]

/-- R75: the displacement -4 undoes the advance of the counter. -/
theorem branchTarget_add_four_neg_one (pc : Word) : branchTarget (pc + 4) 0xFFFF = pc := by
  have hdisp : branchDisplacement 0xFFFF = -4 := by decide
  rw [branchTarget, hdisp, add_neg_cancel_right]

/-- Settles O36: the word is `beq $0,$0,-1`, always taken and back to its own address. -/
theorem selfBranchNeverEnds : Obligations.SelfBranchNeverEnds := by
  intro s hrun hfetch
  have hself : step s = .next s :=
    calc step s
      _ = exec (.beq 0 0 0xFFFF) s.advancePc := stepWith_exec hrun hfetch rfl
      _ = .next (s.advancePc.setPc (branchTarget (s.pc + 4) 0xFFFF)) := exec_beq_taken _ rfl
      _ = .next s := by rw [branchTarget_add_four_neg_one]; rfl
  refine ⟨hself, fun n => ?_⟩
  rw [runFor_of_step_self hself]
  exact ⟨hrun, State.result_eq_none.2 hrun⟩

end Sys2Proof.Machine

/-! PROOFS. The arithmetic of 41_arithmetic_compare.md: `add` (R78), `sub` (R79), `slt` (R80) and
`addi` (R81). -/

namespace Sys2Proof.Machine

open Sys2Proof.Claims

/-! ### The encodings (R49, R55, R56) -/

theorem secondaryTable_of_toNat_eq {p : OpcodeMap} (hp : p.WF) {fn : BitVec 6}
    {k : SecondaryHandler} (h : fn.toNat = (secondarySlot p k).toNat) :
    secondaryTable p fn = some k := by
  rw [BitVec.eq_of_toNat_eq h]
  exact secondaryTable_secondarySlot hp k

theorem primaryTable_of_toNat_eq {p : OpcodeMap} (hp : p.WF) {op : BitVec 6} {k : PrimaryHandler}
    (h : op.toNat = (primarySlot p k).toNat) : primaryTable p op = some k := by
  rw [BitVec.eq_of_toNat_eq h]
  exact primaryTable_primarySlot hp k

/-- The slot of OP_RTYPE holds no primary handler. -/
theorem ne_opRtype_of_primaryTable {p : OpcodeMap} (hp : p.WF) {op : BitVec 6} {k : PrimaryHandler}
    (h : primaryTable p op = some k) : op ≠ opRtype := by
  rintro rfl
  obtain ⟨-, hrtype, -⟩ := hp
  cases (primaryTable_eq_none_iff.2 hrtype).symm.trans h

/-- A secondary handler is decoded from the words with opcode 0 and the number of its slot. -/
theorem decodesR_secondarySlot (k : SecondaryHandler) {mk : RegIndex → RegIndex → RegIndex → Instr}
    (hmk : ∀ f, secondaryInstr f k = mk (regOfField f.rd) (regOfField f.rs) (regOfField f.rt)) :
    DecodesR (secondarySlot · k) mk := by
  intro p hp w hop hfn
  obtain ⟨hopcode, hrs, hrt, hrd, -, hfunct, -, -⟩ := fieldsAreTheStatedBitRanges w
  have hrtype : (extractFields w).opcode = opRtype := BitVec.eq_of_toNat_eq (hopcode.trans hop)
  have hslot := secondaryTable_of_toNat_eq hp (hfunct.trans hfn)
  exact ⟨_, _, _, (decodeWordWith_secondary hrtype hslot).trans (congrArg _ (hmk _)), hrd, hrs, hrt⟩

/-- A primary handler of the immediate format is decoded from the words with the number of its
slot as their opcode. -/
theorem decodesI_primarySlot (k : PrimaryHandler) {mk : RegIndex → RegIndex → BitVec 16 → Instr}
    (hmk : ∀ f, primaryInstr f k = mk (regOfField f.rs) (regOfField f.rt) f.imm) :
    DecodesI (primarySlot · k) mk := by
  intro p hp w hop
  obtain ⟨hopcode, hrs, hrt, -, -, -, himm, -⟩ := fieldsAreTheStatedBitRanges w
  have hslot := primaryTable_of_toNat_eq hp (hopcode.trans hop)
  have hne := ne_opRtype_of_primaryTable hp hslot
  exact ⟨_, _, _, (decodeWordWith_primary hne hslot).trans (congrArg _ (hmk _)), hrs, hrt, himm⟩

/-! ### The results over plain numbers -/

/-- R79: the difference wraps to the residue of the one over the integers. -/
theorem toNat_sub_eq_emod (a b : Word) :
    ((a - b).toNat : Int) = (a.toNat - b.toNat : Int) % 2 ^ 32 := by
  have ha := a.isLt
  have hb := b.isLt
  rw [BitVec.toNat_sub]
  omega

theorem signed_eq_toInt (v : Word) : signed v = v.toInt := by
  rw [signed, BitVec.toInt_eq_toNat_cond]
  split_ifs <;> omega

theorem toNat_sltResult (a b : Word) :
    (sltResult a b).toNat = if signed a < signed b then 1 else 0 := by
  rw [sltResult, signed_eq_toInt, signed_eq_toInt]
  split_ifs <;> rfl

theorem toNat_add_sext32 (a : Word) (imm : BitVec 16) :
    (a + sext32 imm).toNat = (a.toNat + sextNat imm) % 2 ^ 32 := by
  rw [BitVec.toNat_add, toNat_sext32]

/-! ### The four instructions (R78 to R81) -/

/-- Settles O15: the handler writes the sum of words, which wraps. -/
theorem addWritesTheWrappedSum : Obligations.AddWritesTheWrappedSum :=
  ⟨decodesR_secondarySlot .add fun _ => rfl, fun rd rs rt s =>
    ⟨_, _, exec_add rd rs rt s, BitVec.toNat_add .., writesOnly_writeReg ..⟩⟩

/-- Settles O16: the handler writes the difference of words, `rs` minus `rt`. -/
theorem subWritesTheWrappedDifference : Obligations.SubWritesTheWrappedDifference :=
  ⟨decodesR_secondarySlot .sub fun _ => rfl, fun rd rs rt s =>
    ⟨_, _, exec_sub rd rs rt s, toNat_sub_eq_emod .., writesOnly_writeReg ..⟩⟩

/-- Settles O17: the comparison of words by `toInt` is the one of their signed values. -/
theorem sltWritesTheSignedComparison : Obligations.SltWritesTheSignedComparison :=
  ⟨decodesR_secondarySlot .slt fun _ => rfl, fun rd rs rt s =>
    ⟨_, _, exec_slt rd rs rt s, toNat_sltResult .., writesOnly_writeReg ..⟩⟩

/-- Settles O18: the handler adds the sign-extended immediate, and its destination is `rt`. -/
theorem addiAddsTheSignExtendedImmediate : Obligations.AddiAddsTheSignExtendedImmediate :=
  ⟨decodesI_primarySlot .addi fun _ => rfl, fun rt rs imm s =>
    ⟨_, _, exec_addi rt rs imm s, toNat_add_sext32 .., writesOnly_writeReg ..⟩⟩

end Sys2Proof.Machine

/-! PROOFS. The loads and stores of 42_load_store.md: the addressing mode (R82), `lw` (R83), `sw`
(R84), and a load followed by a store of the same register (S6). -/

namespace Sys2Proof.Machine

open Sys2Proof.Claims

variable {s : State}

/-! ### The addressing mode (R82) -/

theorem toNat_effectiveAddress (s : State) (rs : RegIndex) (imm : BitVec 16) :
    (s.effectiveAddress rs imm).toNat = eaNat s rs imm :=
  toNat_add_sext32 ..

/-- The bounds check of the handlers is the one on the address of R82. -/
theorem inBounds_effectiveAddress_iff {rs : RegIndex} {imm : BitVec 16} :
    s.mem.InBounds (s.effectiveAddress rs imm) ↔ eaNat s rs imm + 3 < s.mem.size := by
  rw [Memory.InBounds, toNat_effectiveAddress]

/-! ### `lw` (R83) -/

/-- Settles O19: the bounds check decides between the loaded word and the stop, and comes before
the destination is looked at. -/
theorem lwLoadsTheWordOrStops : Obligations.LwLoadsTheWordOrStops := by
  refine ⟨decodesI_primarySlot .lw fun _ => rfl, fun rt rs imm s =>
    ⟨toNat_effectiveAddress s rs imm, fun hin => ?_, fun hout => ?_⟩⟩
  · rw [← toNat_effectiveAddress]
    exact ⟨_, _, exec_lw_inBounds rt rs imm (inBounds_effectiveAddress_iff.2 hin),
      s.mem.toNat_wordAt _, writesOnly_writeReg ..⟩
  · exact ⟨_, exec_lw_outOfBounds rt rs imm (mt inBounds_effectiveAddress_iff.1 hout),
      stopsOnly_finish_memoryOutOfBounds s⟩

/-! ### `sw` (R84) -/

/-- R35: a word write leaves every byte outside its four. -/
theorem Memory.byte_setBytes_bytesOfWord_outside {m : Memory} (hs : CellsSorted m.cells) {a b : Nat}
    (hb : ¬ (a ≤ b ∧ b < a + 4)) (v : Word) :
    (m.setBytes a (bytesOfWord v)).byte b = m.byte b := by
  rw [Memory.byte_setBytes hs, dif_neg (by simpa using hb)]

/-- A word write to memory, in the form the statements give it. -/
theorem storesOnly_setBytes (hs : CellsSorted s.mem.cells) (a : Nat) (v : Word) :
    StoresOnly s { s with mem := s.mem.setBytes a (bytesOfWord v) } a v :=
  ⟨Memory.toNat_byte_setBytes_bytesOfWord hs a v,
    fun _ hb => Memory.byte_setBytes_bytesOfWord_outside hs hb v,
    Memory.setBytes_size .., fun _ => rfl, rfl, rfl⟩

/-- Settles O20: the bounds check decides between the four byte writes and the stop. -/
theorem swStoresTheWordOrStops : Obligations.SwStoresTheWordOrStops := by
  refine ⟨decodesI_primarySlot .sw fun _ => rfl, fun rt rs imm s hwf =>
    ⟨toNat_effectiveAddress s rs imm, fun hin => ?_, fun hout => ?_⟩⟩
  · rw [← toNat_effectiveAddress]
    exact ⟨_, exec_sw_inBounds rt rs imm (inBounds_effectiveAddress_iff.2 hin),
      storesOnly_setBytes hwf.sorted ..⟩
  · exact ⟨_, exec_sw_outOfBounds rt rs imm (mt inBounds_effectiveAddress_iff.1 hout),
      stopsOnly_finish_memoryOutOfBounds s⟩

/-! ### A load and then a store of the same register (S6) -/

/-- Big-endian assembly and disassembly are inverse. -/
theorem bytesOfWord_wordOfBytes (b0 b1 b2 b3 : Byte) :
    bytesOfWord (wordOfBytes b0 b1 b2 b3) = [b0, b1, b2, b3] := by
  have hval := toNat_wordOfBytes b0 b1 b2 b3
  simp only [bytesOfWord, List.cons.injEq, and_true]
  refine ⟨?_, ?_, ?_, ?_⟩ <;>
    (apply BitVec.eq_of_toNat_eq
     rw [BitVec.extractLsb'_toNat, hval, Nat.shiftRight_eq_div_pow]
     omega)

/-- The bytes of the word at an address are those the memory holds there. -/
theorem Memory.getElem_bytesOfWord_wordAt (m : Memory) (a : Nat) {k : Nat} (hk : k < 4) :
    (bytesOfWord (m.wordAt a))[k] = m.byte (a + k) := by
  have hbytes : bytesOfWord (m.wordAt a) = (List.range 4).map fun k => m.byte (a + k) :=
    bytesOfWord_wordOfBytes ..
  simp [hbytes]

/-- Writing back the word that lies at an address changes nothing. -/
theorem Memory.setBytes_wordAt {m : Memory} (hwf : m.wf) {a : Nat} (ha : a + 3 < m.size) :
    m.setBytes a (bytesOfWord (m.wordAt a)) = m := by
  have hwf' : (m.setBytes a (bytesOfWord (m.wordAt a))).wf :=
    Memory.setBytes_wf hwf (by rw [bytesOfWord_length]; omega)
  refine Memory.ext_of_byte hwf' hwf (Memory.setBytes_size ..) fun b => ?_
  by_cases hspan : a ≤ b ∧ b < a + 4
  · obtain ⟨k, rfl⟩ := Nat.exists_eq_add_of_le hspan.1
    have hk : k < 4 := by omega
    rw [Memory.byte_setBytes_bytesOfWord hwf.sorted a _ hk, Memory.getElem_bytesOfWord_wordAt m a hk]
  · exact Memory.byte_setBytes_bytesOfWord_outside hwf.sorted hspan _

/-- Settles O39: the store finds the base and the address as the load did, and writes back the word
the load read. -/
theorem loadThenStoreRestoresTheMemory : Obligations.LoadThenStoreRestoresTheMemory := by
  intro s rt rs imm hwf hzero hbase hin
  obtain ⟨v, hv⟩ : ∃ v, v = s.mem.wordAt (s.effectiveAddress rs imm).toNat := ⟨_, rfl⟩
  have hlw : exec (.lw rt rs imm) s = .next (s.writeReg rt v) :=
    hv ▸ exec_lw_inBounds rt rs imm hin
  have haddr : (s.writeReg rt v).effectiveAddress rs imm = s.effectiveAddress rs imm :=
    effectiveAddress_congr imm (State.reg_writeReg_of_ne hbase.symm v)
  have hsw := exec_sw_inBounds rt rs imm (s := s.writeReg rt v) (by rwa [haddr])
  refine ⟨_, _, hlw, hsw, ?_⟩
  rw [haddr, State.reg_writeReg_same hzero, hv]
  exact Memory.setBytes_wordAt hwf hin

end Sys2Proof.Machine

/-! PROOFS. The control flow of 43_control_flow.md: `beq` (R85, R86) and `j` (R87). -/

namespace Sys2Proof.Machine

open Sys2Proof.Claims

/-- A counter write, in the form the statements give it. -/
theorem movesOnly_setPc (s : State) {w : Word} {target : Nat} (h : w.toNat = target) :
    MovesOnly s (s.setPc w) target :=
  ⟨h, fun _ => rfl, rfl, rfl, fun _ => rfl⟩

/-- Settles O21: a taken branch is a write of the target to the counter, one not taken changes
nothing. -/
theorem beqBranchesFromTheAdvancedCounter : Obligations.BeqBranchesFromTheAdvancedCounter := by
  refine ⟨decodesI_primarySlot .beq fun _ => rfl, fun rs rt imm s => ?_⟩
  by_cases heq : s.reg rs = s.reg rt
  · refine ⟨_, exec_beq_taken imm heq, ?_⟩
    rw [if_pos (congrArg BitVec.toNat heq)]
    exact movesOnly_setPc s (toNat_branchTarget s.pc imm)
  · refine ⟨_, exec_beq_not_taken imm heq, ?_⟩
    rw [if_neg (mt BitVec.eq_of_toNat_eq heq)]
    exact movesOnly_setPc s (w := s.pc) rfl

/-- The handler of `j` is decoded from the words with the number of its slot as their opcode. -/
theorem decodeWordWith_j {p : OpcodeMap} (hp : p.WF) {w : Word}
    (hop : bits w 31 26 = p.opJ.toNat) : decodeWordWith p w = .ok (.j (extractFields w).addr) := by
  obtain ⟨hopcode, -⟩ := fieldsAreTheStatedBitRanges w
  have hslot := primaryTable_of_toNat_eq (k := .j) hp (hopcode.trans hop)
  exact decodeWordWith_primary (ne_opRtype_of_primaryTable hp hslot) hslot

/-- Settles O22: the handler writes the target to the counter, over plain numbers the top four bits
plus the field times four. -/
theorem jumpKeepsTheTopFourBits : Obligations.JumpKeepsTheTopFourBits := by
  refine ⟨fun p hp w hop => ?encoding, fun addr s => ?effect⟩
  case encoding => exact ⟨_, decodeWordWith_j hp hop, toNat_extractLsb'_eq_bits w 25 0⟩
  case effect => exact ⟨_, exec_j addr s, movesOnly_setPc s (toNat_jumpTarget s.pc addr)⟩

end Sys2Proof.Machine

/-! PROOFS. The stop of 44_halt.md: `halt` (R88). -/

namespace Sys2Proof.Machine

open Sys2Proof.Claims

/-! ### The words of `halt` (R55) -/

/-- No operand is read, so the opcode alone decides. -/
theorem decodeWordWith_halt {p : OpcodeMap} (hp : p.WF) {w : Word}
    (hop : bits w 31 26 = p.opHalt.toNat) : decodeWordWith p w = .ok .halt := by
  obtain ⟨hopcode, -⟩ := fieldsAreTheStatedBitRanges w
  have hslot := primaryTable_of_toNat_eq (k := .halt) hp (hopcode.trans hop)
  exact decodeWordWith_primary (ne_opRtype_of_primaryTable hp hslot) hslot

/-- The words with one opcode are the 2^26 numbers from `opcode * 2^26` up. -/
theorem bits_opcode_eq_iff {w : Word} {n : Nat} :
    bits w 31 26 = n ↔ n * 2 ^ 26 ≤ w.toNat ∧ w.toNat < (n + 1) * 2 ^ 26 := by
  have hlt : w.toNat / 2 ^ 26 < 2 ^ 6 := Nat.div_lt_of_lt_mul w.isLt
  rw [bits, Nat.mod_eq_of_lt hlt, Nat.div_eq_iff (by decide)]
  omega

/-! ### The effect (R72, R88) -/

/-- Ending a handler with a status that stops the machine changes the run state alone. -/
theorem stopsOnly_finish {s : State} {st result : Status}
    (h : st.runState s.run = .stopped result) : StopsOnly s (s.finish st) result :=
  ⟨h, fun _ => rfl, rfl, rfl, fun _ => rfl⟩

/-- Settles O23: the handler only asks for the halt, which stops the machine with success. -/
theorem haltStopsWithSuccess : Obligations.HaltStopsWithSuccess := by
  refine ⟨fun p hp w hop => decodeWordWith_halt hp hop, fun w ⟨hlow, hhigh⟩ => ?defaults,
    fun s => ?effect⟩
  case defaults =>
    have hop : bits w 31 26 = opcodes.opHalt.toNat :=
      bits_opcode_eq_iff.2 ⟨hlow, Nat.lt_succ_of_le hhigh⟩
    exact decodeWordWith_halt opcodes_wf hop
  case effect => exact ⟨_, exec_halt s, stopsOnly_finish (Status.runState_haltRequested s.run)⟩

end Sys2Proof.Machine

/-! PROOFS. The errors of 60_exceptions.md: the causes of each stop (R89 to R94, R99) and what a
failing Step leaves (R100). -/

namespace Sys2Proof.Machine

open Sys2Proof.Claims

variable {s t : State}

/-! ### The instruction a Step runs -/

theorem not_runs_of_fetchFault {i : Instr} (hfetch : s.fetch = none) : ¬ Runs s i := by
  simp [Runs, hfetch]

theorem runs_iff_of_fetch {w : Word} {i : Instr} (hfetch : s.fetch = some w) :
    Runs s i ↔ decodeWord w = .ok i := by
  simp [Runs, hfetch]

/-- An access does not depend on the counter. -/
theorem dataFault_advancePc {i : Instr} : DataFault s.advancePc i ↔ DataFault s i := by
  cases i <;> exact Iff.rfl

theorem not_dataFault_halt : ¬ DataFault s .halt := not_dataFault_of_no_access rfl

theorem ne_halt_of_dataFault {i : Instr} (h : DataFault s i) : i ≠ .halt := by
  rintro rfl
  exact not_dataFault_halt h

/-! ### The outcomes of a Step, in the order of its checks (R99) -/

/-- The ways a Step from `s` can end, each with its cause. -/
inductive StepOutcome (s : State) : State → Prop where
  /-- R91 -/
  | fetchFault : s.fetch = none → StepOutcome s (s.finish .memoryOutOfBounds)
  /-- R90 -/
  | miss {w : Word} {e : Reject} : s.fetch = some w → decodeWord w = .error e →
      StepOutcome s (s.advancePc.finish .invalidOpcode)
  /-- R92 -/
  | dataFault {w : Word} {i : Instr} : s.fetch = some w → decodeWord w = .ok i →
      DataFault s i → StepOutcome s (s.advancePc.finish .memoryOutOfBounds)
  /-- R94, the status `halt-requested` -/
  | halt {w : Word} : s.fetch = some w → decodeWord w = .ok .halt →
      StepOutcome s (s.advancePc.finish .haltRequested)
  /-- R94, the status `success` -/
  | retired {w : Word} {i : Instr} {t : State} : s.fetch = some w → decodeWord w = .ok i →
      i ≠ .halt → ¬ DataFault s i → t.run = .running → StepOutcome s t

/-- A handler entered by a Step, so while Running, faults, halts or retires. -/
theorem StepOutcome.of_exec {w : Word} {i : Instr} (hrun : s.run = .running)
    (hfetch : s.fetch = some w) (hdecode : decodeWord w = .ok i)
    (hexec : exec i s.advancePc = .next t) : StepOutcome s t := by
  have hframe : HandlerFrame i s.advancePc t := .of_exec hexec
  by_cases hfault : DataFault s i
  · obtain rfl := hframe.fault (dataFault_advancePc.2 hfault)
    exact .dataFault hfetch hdecode hfault
  by_cases hhalt : i = .halt
  · subst hhalt
    cases (exec_halt s.advancePc).symm.trans hexec
    exact .halt hfetch hdecode
  · have hkept : t.run = s.run := hframe.run hhalt (mt dataFault_advancePc.1 hfault)
    exact .retired hfetch hdecode hhalt hfault (hkept.trans hrun)

theorem StepOutcome.of_step (hstep : step s = .next t) : StepOutcome s t := by
  obtain ⟨hrun, ⟨hfetch, rfl⟩ | ⟨w, hfetch, ⟨e, hdecode, rfl⟩ | ⟨i, hdecode, hexec⟩⟩⟩ :=
    stepWith_next hstep
  · exact .fetchFault hfetch
  · exact .miss hfetch hdecode
  · exact .of_exec hrun hfetch hdecode hexec

/-! ### The causes of a stop (R89 to R94) -/

/-- Settles O33: each outcome leaves one run state, and its cause excludes the other causes. -/
theorem stopsHaveExactlyTheirCauses : Obligations.StopsHaveExactlyTheirCauses := by
  intro s t hstep
  cases StepOutcome.of_step hstep with
  | fetchFault hfetch => simp [hfetch, not_runs_of_fetchFault hfetch, RunState.Legal]
  | miss hfetch hdecode => simp [hfetch, hdecode, runs_iff_of_fetch hfetch, RunState.Legal]
  | dataFault hfetch hdecode hfault =>
    simp [hfetch, hdecode, runs_iff_of_fetch hfetch, hfault, ne_halt_of_dataFault hfault,
      RunState.Legal]
  | halt hfetch hdecode =>
    simp [hfetch, hdecode, runs_iff_of_fetch hfetch, not_dataFault_halt, RunState.Legal]
  | retired hfetch hdecode hhalt hok hrun =>
    simp [hfetch, hdecode, runs_iff_of_fetch hfetch, hhalt, hok, hrun]

/-! ### What a failing Step leaves (R36, R100) -/

/-- A stop after the advance of the counter, seen from the state before the Step. -/
theorem advancePc_finish_keeps (s : State) (st : Status) :
    SameRegs s (s.advancePc.finish st) ∧ SameMemory s (s.advancePc.finish st) ∧
      (s.advancePc.finish st).pc = s.pc + 4 :=
  ⟨fun _ => rfl, ⟨rfl, fun _ => rfl⟩, rfl⟩

/-- Settles O34: the three failing outcomes replace only the run state, of the fetching state or of
the one with the counter advanced; the other two outcomes do not fail. -/
theorem failedStepChangesNoRegisterOrByte : Obligations.FailedStepChangesNoRegisterOrByte := by
  intro s t hstep hfailed
  cases StepOutcome.of_step hstep with
  | fetchFault hfetch =>
    obtain ⟨-, hregs, hpc, hmem⟩ := stopsOnly_finish_memoryOutOfBounds s
    exact ⟨hregs, hmem, .inl ⟨hfetch, hpc⟩⟩
  | miss hfetch | dataFault hfetch =>
    obtain ⟨hregs, hmem, hpc⟩ := advancePc_finish_keeps s _
    exact ⟨hregs, hmem, .inr ⟨by simp [hfetch], hpc⟩⟩
  | halt => simp [RunState.Failed] at hfailed
  | retired _ _ _ _ hrun => simp [RunState.Failed, hrun] at hfailed

end Sys2Proof.Machine

/-! PROOFS. Reset and the host of 70_reset_and_hazards.md: the launches that are refused and the
smallest memories (R106, R109), and the observation after a stop (R111). -/

namespace Sys2Proof.Machine

open Sys2Proof.Claims

/-! ### Refused launches (R106, R109) -/

theorem launch_of_not_memSizeLegal {size : Nat} (h : ¬ MemSizeLegal size) (image : List Byte) :
    launch size image = .refused .memorySizeIllegal := by
  rw [launch, initialise, if_neg h]

theorem launch_of_not_imageFits {size : Nat} {image : List Byte} (h : MemSizeLegal size)
    (hi : ¬ ImageFits image size) : launch size image = .refused .imageTooLong := by
  rw [launch, initialise, if_pos h]
  exact if_neg hi

/-- Settles O43: a longer image is one that does not fit. -/
theorem oversizeImageIsRefused : Obligations.OversizeImageIsRefused :=
  fun _ _ hsize hlong => launch_of_not_imageFits hsize (Nat.not_le.2 hlong)

/-! ### Every size (R106) -/

theorem launch_pc_run {size : Nat} {image : List Byte} {s : State}
    (h : launch size image = .next s) : s.pc = 0 ∧ s.run = .running := by
  obtain ⟨-, -, rfl⟩ := launch_next h
  exact ⟨rfl, rfl⟩

/-- Settles O42: in fewer than 4 bytes no address is in bounds, so the first fetch stops the machine
with the counter where the launch left it. -/
theorem everySizeFromOneIsLegal : Obligations.EverySizeFromOneIsLegal := by
  refine fun size image => ⟨fun hsize => launch_of_not_memSizeLegal hsize image,
    fun hsize hfits => ⟨_, launch_eq hsize hfits⟩, fun s hsmall hlaunch => ?_⟩
  obtain ⟨-, hsize⟩ := launch_inv hlaunch
  obtain ⟨hpc, hrun⟩ := launch_pc_run hlaunch
  have hout : ¬ s.mem.InBounds s.pc := by omega
  have hfetch : s.fetch = none := State.fetch_eq_none.2 hout
  exact ⟨_, stepWith_fetchFault hrun hfetch, stopsOnly_finish_memoryOutOfBounds s, hpc⟩

/-! ### Observation (R111) -/

theorem State.observe_eq_none {s : State} : s.observe = none ↔ s.run = .running :=
  Option.map_eq_none_iff.trans State.result_eq_none

theorem State.observe_eq_some {s : State} {o : Observation} :
    s.observe = some o ↔ ∃ st, s.run = .stopped st ∧
      { status := st, pc := s.pc, regs := (List.finRange 32).map s.reg, mem := s.mem } = o := by
  simp only [State.observe, Option.map_eq_some_iff, State.result_eq_some]

/-- Settles O37: the listed registers are those of the 32 indices, in order. -/
theorem observationIsAPureReadAfterTheStop :
    Obligations.ObservationIsAPureReadAfterTheStop := by
  refine fun s => ⟨State.observe_eq_none, fun o hobserve => ?_⟩
  obtain ⟨st, hstop, rfl⟩ := State.observe_eq_some.1 hobserve
  exact ⟨hstop, rfl, rfl, by simp, fun r => by simp⟩

end Sys2Proof.Machine

/-! PROOFS. The words written out from 30_encoding.md and 95_test_vectors.md: decoding under the
default numbers (R51, R56). -/

namespace Sys2Proof.Machine

/-- Settles O5: each word agrees with its instruction's encoding in the bits read. The `halt` word
differs from it in bits 25:24 and the `add` word in `shamt`, which are ignored (R51). -/
theorem writtenOutWordsDecode : Obligations.WrittenOutWordsDecode := by
  simp only [Obligations.WrittenOutWordsDecode, decodeWord, decodeWordWith_eq_ok_iff opcodes_wf]
  decide

end Sys2Proof.Machine
